-- ==== Sys2Proof/Word.lean ====
section
/-! DEFINITION. The word types of the core (spec/00_scope.md R5, R6). -/

namespace Sys2Proof

/-- Eight bits: one byte of a snapshot record (R43) or of a token (R6). -/
abbrev Byte := BitVec 8

/-- `XLEN` bits, as are `PCW` (R5): a general register, an ALU operand, the program counter, `LEN`. -/
abbrev Word := BitVec 32

/-- A register index, 0 to 31 (R10): the five index bits of a register field (R60). -/
abbrev RegIdx := BitVec 5

end Sys2Proof
end

