-- ==== Sys2Proof/Config.lean ====
section
/-! DEFINITION. The implementation parameters of spec/00_scope.md R5, each a named constant with the
default of spec/92_eei_decisions.md. The operations they govern take the policy as an argument, so
that a statement may be made for every value of it; the two widths give the types `Count` and `InstrWord`. -/

namespace Sys2Proof

/-- `SHAMT_POLICY` (R102, D8): what a shift does with an amount outside 0 to 31. -/
inductive ShamtPolicy where
  /-- the low five bits of the immediate are the amount -/
  | mask5
  /-- the instruction is a skip (the alternative R102 names) -/
  | skip
deriving DecidableEq, Repr

/-- `CORRUPT_SNAPSHOT_POLICY` (R161, D13): what becomes of a snapshot file that is not 132 bytes. -/
inductive CorruptSnapshotPolicy where
  /-- the file is not loaded -/
  | reject
  /-- the first bytes fill the record, the rest of it is zero (the alternative R161 names) -/
  | partialLoad
deriving DecidableEq, Repr

/-- `SNAP_ENDIAN` (R33, R43, D11): the byte order of each 32-bit field of a snapshot record. -/
inductive SnapEndian where
  | little
  | big
deriving DecidableEq, Repr

/-- `MNEMONIC_CASE` (R48, D7): how a mnemonic is matched. The spec gives only `exact`; `folded`
(ASCII letter case ignored) is the model's reading of the other choice D7 speaks of
(DESIGN CHOICE, log entry 12). -/
inductive MnemonicCase where
  | exact
  | folded
deriving DecidableEq, Repr

/-- `NREGS` (R5). -/
def Config.nregs : Nat := 32

/-- `XLEN` (R5). -/
def Config.xlen : Nat := 32

/-- `PCW` (R5). -/
def Config.pcw : Nat := 32

/-- `QUOTAW` (R5, D9): the width of the quota and of the step counter. -/
abbrev Config.quotaw : Nat := 32

/-- `LEN_MAX` (R5, R19, D10): the largest legal instruction-sequence length. -/
def Config.lenMax : Nat := 4294967295

/-- `IWLEN` (R5, D1, D2): the width of the binary instruction word. R60 places fields in the low 64 bits; a wider word
must be 0 above them (DESIGN CHOICE, log entry 10). -/
abbrev Config.iwlen : Nat := 64

/-- `SNAP_BYTES` (R5, R43): the size of a snapshot record. -/
def Config.snapBytes : Nat := 132

/-- `SHAMT_POLICY` = `mask5` (R5, D8). -/
def Config.shamtPolicy : ShamtPolicy := .mask5

/-- `CORRUPT_SNAPSHOT_POLICY` = `reject` (R5, D13). -/
def Config.corruptSnapshotPolicy : CorruptSnapshotPolicy := .reject

/-- `SNAP_ENDIAN` = little (R5, D11). -/
def Config.snapEndian : SnapEndian := .little

/-- `MNEMONIC_CASE` = exact (R5, D7). -/
def Config.mnemonicCase : MnemonicCase := .exact

/-- `DUMP_PREFIX` = `R` (R5, R115, D14), as the bytes of the label. -/
def Config.dumpPrefix : List Byte := [0x52#8]

/-- `QUOTAW` bits: the quota or the step counter (R17, R18). -/
abbrev Count := BitVec Config.quotaw

/-- `IWLEN` bits: one instruction at the binary level (R60). -/
abbrev InstrWord := BitVec Config.iwlen

end Sys2Proof
end

