-- ==== Sys2Proof/Machine/Num.lean ====
section
/-! DEFINITION. Numbers and bytes: the wrap of spec/00_scope.md R6, the byte order of a 32-bit field
(spec/20_memory.md R33, R43), ASCII characters and decimal digits. -/

namespace Sys2Proof

/-- `wrap32(n)` (R6): the 32-bit vector whose unsigned reading is `n mod 2^32`. -/
def wrap32 (n : Int) : Word := BitVec.ofInt 32 n

/-- The four bytes of a 32-bit field at rising offsets; little-endian puts bits 7 to 0 lowest (R33). -/
def wordBytes (e : SnapEndian) (v : Word) : List Byte :=
  let rising := [v.extractLsb' 0 8, v.extractLsb' 8 8, v.extractLsb' 16 8, v.extractLsb' 24 8]
  match e with
  | .little => rising
  | .big => rising.reverse

/-- The 32-bit field whose bytes at rising offsets are `b0` to `b3`: the inverse of `wordBytes` (R43). -/
def bytesWord (e : SnapEndian) (b0 b1 b2 b3 : Byte) : Word :=
  match e with
  | .little => b3 ++ b2 ++ b1 ++ b0
  | .big => b0 ++ b1 ++ b2 ++ b3

/-- The bytes of an ASCII string. -/
def ascii (str : String) : List Byte := str.toList.map fun c => BitVec.ofNat 8 c.toNat

/-- ASCII white space: space, tab, line feed, vertical tab, form feed, carriage return. The spec does not
list the characters (DESIGN CHOICE, log entry 11). -/
def isSpace (b : Byte) : Bool :=
  b == 0x20#8 || (0x09#8 ≤ b && b ≤ 0x0D#8)

/-- `b in '0'..'9'` (R50, R52). -/
def isDigit (b : Byte) : Bool := 0x30#8 ≤ b && b ≤ 0x39#8

/-- The value of a decimal digit. -/
def digitValue (b : Byte) : Nat := b.toNat - 0x30

/-- The decimal value of a string of digits as a mathematical integer, leading zeros allowed (R50,
R52, D5). -/
def decimalValue (ds : List Byte) : Nat := ds.foldl (fun n b => 10 * n + digitValue b) 0

/-- The decimal digits of a natural number, without padding (R115). -/
def decimalNat (n : Nat) : List Byte := (Nat.toDigits 10 n).map fun c => BitVec.ofNat 8 c.toNat

/-- The signed decimal rendering of an integer (R115). -/
def decimalInt (n : Int) : List Byte :=
  if n < 0 then 0x2D#8 :: decimalNat n.natAbs else decimalNat n.natAbs

/-- An upper-case ASCII letter in lower case, every other byte as it is (`MnemonicCase.folded`). -/
def foldCase (b : Byte) : Byte := if 0x41#8 ≤ b && b ≤ 0x5A#8 then b + 0x20#8 else b

end Sys2Proof
end

