-- ==== Sys2Proof/Syntax.lean ====
section
/-! DEFINITION. The syntax of BH-ISA at its two levels (spec/30_encoding.md R45 to R71): tokenized text
instructions, instruction-store entries, and the Decoded record `Instr` both decode to. -/

namespace Sys2Proof

/-- A token: "a finite string of bytes (characters)" (R6). -/
abbrev Token := List Byte

/-- The text-level Instruction record: "an immutable record of a mnemonic (string) plus an ordered
sequence of trimmed operand tokens (strings)" (R47). -/
structure TextInstr where
  mnemonic : Token
  operands : List Token
deriving DecidableEq, Repr

/-- The 13 mnemonics of the text-level opcode table (R49). -/
inductive Mnemonic where
  | li | add | sub | addi | mul | and | or | ori | xor | sll | srl
  | dumpProcessorState | snapshot
deriving DecidableEq, Repr

/-- The filename operand of `SNAPSHOT`: "a string at the text level, a 32-bit tag at the binary level"
(R54, R58, R68). The core never interprets it. -/
inductive SnapshotName where
  /-- the binary level's tag, an index into the environment's table of names (R68) -/
  | tag (t : Word)
  /-- the text level's opaque token, quotation marks included (R54) -/
  | file (name : Token)
deriving DecidableEq, Repr

/-- The Decoded record (R58): the closed enumeration of the opcode set, each variant carrying its typed,
already-arity-checked operands. One constructor per row of opcode_table.json. -/
inductive Instr where
  /-- `li rd, imm` (R80) -/
  | li (rd : RegIdx) (imm : Word)
  /-- `add rd, rs, rt` (R81) -/
  | add (rd rs rt : RegIdx)
  /-- `sub rd, rs, rt` (R82) -/
  | sub (rd rs rt : RegIdx)
  /-- `addi rd, rs, imm` (R83) -/
  | addi (rd rs : RegIdx) (imm : Word)
  /-- `mul rd, rs, rt` (R84) -/
  | mul (rd rs rt : RegIdx)
  /-- `and rd, rs, rt` (R90) -/
  | and (rd rs rt : RegIdx)
  /-- `or rd, rs, rt`, register form (R91) -/
  | or (rd rs rt : RegIdx)
  /-- `ori rd, rs, imm` (R93) -/
  | ori (rd rs : RegIdx) (imm : Word)
  /-- `xor rd, rs, rt` (R94) -/
  | xor (rd rs rt : RegIdx)
  /-- `sll rd, rs, shamt` (R100) -/
  | sll (rd rs : RegIdx) (imm : Word)
  /-- `srl rd, rs, shamt` (R101) -/
  | srl (rd rs : RegIdx) (imm : Word)
  /-- `DUMP_PROCESSOR_STATE` (R110) -/
  | dump
  /-- `SNAPSHOT filename` (R111) -/
  | snapshot (name : SnapshotName)
  /-- `or rd, rs, literal`, literal form (R92) -/
  | orl (rd rs : RegIdx) (imm : Word)
  /-- the skip (R112): every unrecognized or malformed instruction -/
  | skip
deriving DecidableEq, Repr

/-- One entry of the instruction store (R31): a 64-bit word at the binary level, a tokenized
instruction at the text level. -/
inductive StoreEntry where
  | word (w : InstrWord)
  | text (t : TextInstr)
deriving DecidableEq, Repr

end Sys2Proof
end

