-- ==== Sys2Proof/WellFormed.lean ====
section
/-! DEFINITION. What makes a term of the syntax well formed. Register indices and immediates are of
the right width by their types; what is left are the conditions below. -/

namespace Sys2Proof

/-- "the mnemonic contains no whitespace" (R47). -/
def mnemonicOk (mn : Token) : Bool := mn.all fun b => !isSpace b

/-- "no operand token is empty" (R47). -/
def Token.nonEmpty (tok : Token) : Bool := !tok.isEmpty

/-- "no operand token has leading or trailing whitespace" (R47). -/
def Token.trimmed (tok : Token) : Bool :=
  !(tok.head?.any isSpace) && !(tok.getLast?.any isSpace)

/-- "no operand token contains a comma" (R47). -/
def Token.commaFree (tok : Token) : Bool := tok.all fun b => b != 0x2C#8

/-- What the loader guarantees of an Instruction record (R47). The core does not rely on it: a token
that breaks it "simply fails to resolve" (D27). -/
def TextInstr.wellFormed (t : TextInstr) : Bool :=
  mnemonicOk t.mnemonic &&
    t.operands.all fun tok => Token.nonEmpty tok && Token.trimmed tok && Token.commaFree tok

/-- A Decoded record that the binary level can spell: the name of a `SNAPSHOT` is a tag (R68). Every
other Decoded record has a word (R65). -/
def Instr.wellFormed : Instr → Bool
  | .snapshot (.file _) => false
  | .snapshot (.tag _) => true
  | .li _ _ => true
  | .add _ _ _ => true
  | .sub _ _ _ => true
  | .addi _ _ _ => true
  | .mul _ _ _ => true
  | .and _ _ _ => true
  | .or _ _ _ => true
  | .ori _ _ _ => true
  | .xor _ _ _ => true
  | .sll _ _ _ => true
  | .srl _ _ _ => true
  | .dump => true
  | .orl _ _ _ => true
  | .skip => true

end Sys2Proof
end

