-- ==== Sys2Proof/Decode.lean ====
section
/-! DEFINITION. Decoding and encoding (spec/30_encoding.md). Part A: the text decoder (R48 to R57). Part B:
the 64-bit word, its decoder and encoder (R60 to R65). Part C: the assembler that ties the two (R66
to R68). Decoding is total at both levels: what spells no instruction is `Instr.skip` (R56, R64). -/

namespace Sys2Proof

/-! ## Part A. Text level -/

/-- The 32 symbolic register names in index order (R12). -/
def registerNames : List Token :=
  [ascii "$zero", ascii "$at", ascii "$v0", ascii "$v1",
    ascii "$a0", ascii "$a1", ascii "$a2", ascii "$a3",
    ascii "$t0", ascii "$t1", ascii "$t2", ascii "$t3",
    ascii "$t4", ascii "$t5", ascii "$t6", ascii "$t7"] ++
  [ascii "$s0", ascii "$s1", ascii "$s2", ascii "$s3",
    ascii "$s4", ascii "$s5", ascii "$s6", ascii "$s7",
    ascii "$t8", ascii "$t9", ascii "$k0", ascii "$k1",
    ascii "$gp", ascii "$sp", ascii "$fp", ascii "$ra"]

/-- Rule 1 of `resolve_register` (R50): `$` and then decimal digits only, of value 0 to 31. -/
def numericRegister (tok : Token) : Option RegIdx :=
  match tok with
  | [] => none
  | dollar :: digits =>
    if dollar == 0x24#8 && !digits.isEmpty && digits.all isDigit && decimalValue digits ≤ 31 then
      some (BitVec.ofNat 5 (decimalValue digits))
    else none

/-- Rule 2 of `resolve_register` (R50): exact match against the symbolic names of R12. -/
def symbolicRegister (tok : Token) : Option RegIdx :=
  (registerNames.findIdx? (· == tok)).map (BitVec.ofNat 5)

/-- `resolve_register` (R50); `none` is `NotARegister`. -/
def resolveRegister (tok : Token) : Option RegIdx :=
  (numericRegister tok).or (symbolicRegister tok)

/-- The value of the digits of a literal with its sign, if there is at least one digit and nothing else,
and the value is in the signed 32-bit range (R52, D6). -/
def signedLiteral (negative : Bool) (digits : List Byte) : Option Word :=
  let n : Int := if negative then -(decimalValue digits : Int) else decimalValue digits
  if !digits.isEmpty && digits.all isDigit && -2147483648 ≤ n && n ≤ 2147483647 then
    some (wrap32 n)
  else none

/-- `resolve_immediate` (R52): `[+-]? [0-9]+` over the whole token; `none` is `ParseError`. -/
def resolveImmediate (tok : Token) : Option Word :=
  match tok with
  | [] => none
  | c :: rest =>
    if c == 0x2D#8 then signedLiteral true rest
    else if c == 0x2B#8 then signedLiteral false rest
    else signedLiteral false (c :: rest)

/-- The 13 mnemonics as they are spelled (R49). -/
def mnemonicTable : List (Token × Mnemonic) :=
  [(ascii "li", .li), (ascii "add", .add), (ascii "sub", .sub), (ascii "addi", .addi),
    (ascii "mul", .mul), (ascii "and", .and), (ascii "or", .or), (ascii "ori", .ori),
    (ascii "xor", .xor), (ascii "sll", .sll), (ascii "srl", .srl),
    (ascii "DUMP_PROCESSOR_STATE", .dumpProcessorState), (ascii "SNAPSHOT", .snapshot)]

/-- Whether a token spells a mnemonic, by the letter-case policy (R48, D7). -/
def mnemonicMatches (p : MnemonicCase) (name tok : Token) : Bool :=
  match p with
  | .exact => name == tok
  | .folded => name.map foldCase == tok.map foldCase

/-- Dispatch by mnemonic (R48): `none` for every mnemonic outside the table (R57). -/
def resolveMnemonic (p : MnemonicCase) (tok : Token) : Option Mnemonic :=
  (mnemonicTable.find? fun row => mnemonicMatches p row.1 tok).map (·.2)

/-- Operands `rd: reg, imm: lit` of `li` (R49, R55). -/
def decodeRegLit (mk : RegIdx → Word → Instr) (ops : List Token) : Instr :=
  match ops with
  | [a, b] =>
    match resolveRegister a, resolveImmediate b with
    | some rd, some imm => mk rd imm
    | _, _ => .skip
  | _ => .skip

/-- Operands `rd, rs, rt: reg` of `add sub mul and xor` (R49, R55). -/
def decodeRegRegReg (mk : RegIdx → RegIdx → RegIdx → Instr) (ops : List Token) : Instr :=
  match ops with
  | [a, b, c] =>
    match resolveRegister a, resolveRegister b, resolveRegister c with
    | some rd, some rs, some rt => mk rd rs rt
    | _, _, _ => .skip
  | _ => .skip

/-- Operands `rd, rs: reg, imm: lit` of `addi ori sll srl` (R49, R55). -/
def decodeRegRegLit (mk : RegIdx → RegIdx → Word → Instr) (ops : List Token) : Instr :=
  match ops with
  | [a, b, c] =>
    match resolveRegister a, resolveRegister b, resolveImmediate c with
    | some rd, some rs, some imm => mk rd rs imm
    | _, _, _ => .skip
  | _ => .skip

/-- Operands of `or` (R53, R55): the third token is tried as a register first, then as a literal. -/
def decodeOr (ops : List Token) : Instr :=
  match ops with
  | [a, b, c] =>
    match resolveRegister a, resolveRegister b with
    | some rd, some rs =>
      match resolveRegister c with
      | some rt => .or rd rs rt
      | none =>
        match resolveImmediate c with
        | some imm => .orl rd rs imm
        | none => .skip
    | _, _ => .skip
  | _ => .skip

/-- `DUMP_PROCESSOR_STATE` takes no operand (R55). -/
def decodeDump (ops : List Token) : Instr :=
  match ops with
  | [] => .dump
  | _ => .skip

/-- `SNAPSHOT` takes one opaque name (R54, R55). -/
def decodeSnapshot (ops : List Token) : Instr :=
  match ops with
  | [name] => .snapshot (.file name)
  | _ => .skip

/-- The operands of a recognized mnemonic (R55). -/
def decodeOperands (mn : Mnemonic) (ops : List Token) : Instr :=
  match mn with
  | .li => decodeRegLit .li ops
  | .add => decodeRegRegReg .add ops
  | .sub => decodeRegRegReg .sub ops
  | .addi => decodeRegRegLit .addi ops
  | .mul => decodeRegRegReg .mul ops
  | .and => decodeRegRegReg .and ops
  | .or => decodeOr ops
  | .ori => decodeRegRegLit .ori ops
  | .xor => decodeRegRegReg .xor ops
  | .sll => decodeRegRegLit .sll ops
  | .srl => decodeRegRegLit .srl ops
  | .dumpProcessorState => decodeDump ops
  | .snapshot => decodeSnapshot ops

/-- `decode_text` with the letter-case policy as an argument (R55, R48). -/
def decodeTextWith (p : MnemonicCase) (t : TextInstr) : Instr :=
  match resolveMnemonic p t.mnemonic with
  | some mn => decodeOperands mn t.operands
  | none => .skip

/-- `decode_text` (R55): total, its worst result is `skip` (R56). -/
def decodeText (t : TextInstr) : Instr := decodeTextWith Config.mnemonicCase t

/-! ## Part B. Binary level -/

/-- Bits 52:48 (R60). -/
def fieldRd (w : InstrWord) : RegIdx := w.extractLsb' 48 5

/-- Bits 44:40 (R60). -/
def fieldRs (w : InstrWord) : RegIdx := w.extractLsb' 40 5

/-- Bits 36:32 (R60). -/
def fieldRt (w : InstrWord) : RegIdx := w.extractLsb' 32 5

/-- Bits 31:0 (R60): the immediate, used whole. -/
def fieldImm (w : InstrWord) : Word := w.extractLsb' 0 32

/-- The 64 bits in which R60 places fields. -/
def layoutBits (w : InstrWord) : BitVec 64 := w.setWidth 64

/-- The word with the given bits in the layout of R60 and 0 in every bit it gives no place. -/
def layoutWord (bits : BitVec 64) : InstrWord := bits.setWidth Config.iwlen

/-- A row of the opcode map (R62): a word is the row's instruction exactly when
`w & mask = matchBits`, and `build` reads its operands (R63). -/
structure OpcodeRow where
  matchBits : BitVec 64
  mask : BitVec 64
  build : InstrWord → Instr

/-- The opcode map (R62), op 0x01 to 0x0E. -/
def opcodeRows : List OpcodeRow :=
  [⟨0x0100000000000000#64, 0xFFE0FFFF00000000#64, fun w => .li (fieldRd w) (fieldImm w)⟩,
    ⟨0x0200000000000000#64, 0xFFE0E0E0FFFFFFFF#64, fun w => .add (fieldRd w) (fieldRs w) (fieldRt w)⟩,
    ⟨0x0300000000000000#64, 0xFFE0E0E0FFFFFFFF#64, fun w => .sub (fieldRd w) (fieldRs w) (fieldRt w)⟩,
    ⟨0x0400000000000000#64, 0xFFE0E0FF00000000#64, fun w => .addi (fieldRd w) (fieldRs w) (fieldImm w)⟩,
    ⟨0x0500000000000000#64, 0xFFE0E0E0FFFFFFFF#64, fun w => .mul (fieldRd w) (fieldRs w) (fieldRt w)⟩,
    ⟨0x0600000000000000#64, 0xFFE0E0E0FFFFFFFF#64, fun w => .and (fieldRd w) (fieldRs w) (fieldRt w)⟩,
    ⟨0x0700000000000000#64, 0xFFE0E0E0FFFFFFFF#64, fun w => .or (fieldRd w) (fieldRs w) (fieldRt w)⟩,
    ⟨0x0800000000000000#64, 0xFFE0E0FF00000000#64, fun w => .ori (fieldRd w) (fieldRs w) (fieldImm w)⟩] ++
  [⟨0x0900000000000000#64, 0xFFE0E0E0FFFFFFFF#64, fun w => .xor (fieldRd w) (fieldRs w) (fieldRt w)⟩,
    ⟨0x0A00000000000000#64, 0xFFE0E0FF00000000#64, fun w => .sll (fieldRd w) (fieldRs w) (fieldImm w)⟩,
    ⟨0x0B00000000000000#64, 0xFFE0E0FF00000000#64, fun w => .srl (fieldRd w) (fieldRs w) (fieldImm w)⟩,
    ⟨0x0C00000000000000#64, 0xFFFFFFFFFFFFFFFF#64, fun _ => .dump⟩,
    ⟨0x0D00000000000000#64, 0xFFFFFFFF00000000#64, fun w => .snapshot (.tag (fieldImm w))⟩,
    ⟨0x0E00000000000000#64, 0xFFE0E0FF00000000#64, fun w => .orl (fieldRd w) (fieldRs w) (fieldImm w)⟩]

/-- Whether a word matches a row of the opcode map (R62). A bit above the layout of R60, where `IWLEN` gives the word
any, must be 0. -/
def OpcodeRow.admits (r : OpcodeRow) (w : InstrWord) : Bool :=
  layoutBits w &&& r.mask == r.matchBits && layoutWord (layoutBits w) == w

/-- `decode_word` (R63): total on all words; a word that matches no row is `skip` (R64). -/
def decodeWord (w : InstrWord) : Instr :=
  match opcodeRows.find? (·.admits w) with
  | some r => r.build w
  | none => .skip

/-- The word with the given fields and zero in every other bit (R60, R65). -/
def packWord (op : Byte) (rd rs rt : RegIdx) (imm : Word) : InstrWord :=
  layoutWord (op ++ 0#3 ++ rd ++ 0#3 ++ rs ++ 0#3 ++ rt ++ imm)

/-- `encode` (R65). A `SNAPSHOT` whose name is still a text token has no word: the assembler replaces the
name by its tag first (R66, R68). -/
def encode (i : Instr) : Option InstrWord :=
  match i with
  | .li rd imm => some (packWord 0x01#8 rd 0#5 0#5 imm)
  | .add rd rs rt => some (packWord 0x02#8 rd rs rt 0#32)
  | .sub rd rs rt => some (packWord 0x03#8 rd rs rt 0#32)
  | .addi rd rs imm => some (packWord 0x04#8 rd rs 0#5 imm)
  | .mul rd rs rt => some (packWord 0x05#8 rd rs rt 0#32)
  | .and rd rs rt => some (packWord 0x06#8 rd rs rt 0#32)
  | .or rd rs rt => some (packWord 0x07#8 rd rs rt 0#32)
  | .ori rd rs imm => some (packWord 0x08#8 rd rs 0#5 imm)
  | .xor rd rs rt => some (packWord 0x09#8 rd rs rt 0#32)
  | .sll rd rs imm => some (packWord 0x0A#8 rd rs 0#5 imm)
  | .srl rd rs imm => some (packWord 0x0B#8 rd rs 0#5 imm)
  | .dump => some (packWord 0x0C#8 0#5 0#5 0#5 0#32)
  | .snapshot (.tag t) => some (packWord 0x0D#8 0#5 0#5 0#5 t)
  | .snapshot (.file _) => none
  | .orl rd rs imm => some (packWord 0x0E#8 rd rs 0#5 imm)
  | .skip => some 0#Config.iwlen

/-- The canonical skip word (R61, R62). -/
def skipWord : InstrWord := 0#Config.iwlen

/-- The instruction a store entry stands for: the decode phase (R129). -/
def decodeEntry (e : StoreEntry) : Instr :=
  match e with
  | .word w => decodeWord w
  | .text t => decodeText t

/-- The instruction word of a table word `w` of `nbits` bits: the bits above `nbits` are zero. -/
def tableWord (nbits w : Nat) : InstrWord := BitVec.ofNat Config.iwlen (w % 2 ^ nbits)

/-- What the decoder reads from a table word (never `none`: the binary decoder is total, R63). -/
def decodeTableWord (nbits w : Nat) : Option Instr := some (decodeWord (tableWord nbits w))

/-! ## Part C. The assembler -/

/-- The tag of a name in a table of names: its index (R68). -/
def tagOf (names : List Token) (name : Token) : Word := BitVec.ofNat 32 (names.idxOf name)

/-- A Decoded record with its `SNAPSHOT` name replaced by its tag (R66, R67). -/
def Instr.withTag (names : List Token) (i : Instr) : Instr :=
  match i with
  | .snapshot (.file name) => .snapshot (.tag (tagOf names name))
  | other => other

/-- `assemble` for one instruction with a given table of names (R66): what the text decoder would skip
assembles to the canonical skip word. -/
def assemble (names : List Token) (t : TextInstr) : InstrWord :=
  (encode ((decodeText t).withTag names)).getD skipWord

/-- The filename of an instruction that is a `SNAPSHOT` (R68). -/
def snapshotFile (t : TextInstr) : Option Token :=
  match decodeText t with
  | .snapshot (.file name) => some name
  | _ => none

/-- The names of a program in order of first appearance, equal names once (R68). -/
def nameTableFrom (seen : List Token) (ts : List TextInstr) : List Token :=
  match ts with
  | [] => seen
  | t :: rest =>
    match snapshotFile t with
    | some name => nameTableFrom (if seen.contains name then seen else seen ++ [name]) rest
    | none => nameTableFrom seen rest

/-- The tag table of a program (R68). -/
def nameTable (ts : List TextInstr) : List Token := nameTableFrom [] ts

/-- The assembled image of a program: one word per instruction, skips included (R66). -/
def assembleProgram (ts : List TextInstr) : List InstrWord := ts.map (assemble (nameTable ts))

end Sys2Proof
end

