-- ==== Sys2Proof/Machine/State.lean ====
section
/-! DEFINITION. The state of the core (spec/10_state.md), the reasons a step can stop, and the state after
reset. State is plain data. -/

namespace Sys2Proof.Machine

/-- The storage of `x[1]` to `x[31]` (R10): cell `k` is register `k + 1`. Register 0 "has no storage
cell" (R11). -/
abbrev RegFile := Vector Word 31

/-- The run states (R20, R125). -/
inductive RunState where
  /-- "constructed, state initialized or restored" -/
  | ready
  /-- "executing loop" -/
  | running
  /-- "terminal; quota exhausted or program counter ran past end of instruction sequence" -/
  | halted
deriving DecidableEq, Repr

/-- The outcome of one step (R130, D16). -/
inductive StepOutcome where
  | executed
  | skipped
deriving DecidableEq, Repr

/-- An output event (R24). -/
inductive Event where
  /-- the 32 register values in index order (R110) -/
  | dump (values : List Word)
  /-- the name or tag and the 132-byte record (R111) -/
  | checkpoint (name : SnapshotName) (record : List Byte)
deriving DecidableEq, Repr

/-- The instruction store (R31), at the binary or at the text level (R7). Entry `i` of the list is
instruction `i`. -/
inductive IMem where
  | words (ws : List InstrWord)
  | text (ts : List TextInstr)
deriving DecidableEq, Repr

/-- The input ports (R26) but for `cfg_len` and `imem_data`, which the store `State.imem` gives. The
outside world sets them between steps, a step reads them (DESIGN CHOICE, log entry 3). -/
structure InputPorts where
  rst : Bool
  restoreValid : Bool
  restoreRegs : Vector Word 32
  restorePc : Word
  cfgQuota : Count
  start : Bool
deriving DecidableEq, Repr

/-- "VMState: the pair of register file and program counter", as it is handed over: 32 register slots
and a `pc` (R25, R43). -/
structure VMState where
  regs : Vector Word 32
  pc : Word
deriving DecidableEq, Repr

/-- The state of the core: the tuple of R138 with the run inputs (R18, R25, R26, R31) and the
sequence of step outcomes (R130). -/
structure State where
  /-- `x[1]` to `x[31]` (R10) -/
  regs : RegFile
  /-- the program counter, an instruction index (R15) -/
  pc : Word
  /-- the step counter (R17) -/
  steps : Count
  /-- the run state (R20) -/
  runState : RunState
  /-- the quota sampled at start (R18) -/
  quota : Count
  /-- the output event sequence, oldest first (R24) -/
  events : List Event
  /-- the outcome of every step of the run, oldest first (R130; the model's own field, log entry 6) -/
  outcomes : List StepOutcome
  /-- the instruction store, a run input (R31) -/
  imem : IMem
  /-- the input ports (R26) -/
  ports : InputPorts
deriving DecidableEq, Repr

/-- The reasons a step could stop the machine with a fault. The hardware has none (R150, R151). -/
inductive Fault where
  /-- Raised by `step` alone, for a fetch at an index that the store does not hold, to which R172 gives
  no meaning. `step` fetches only below `IMem.len`, so no state reaches it (log entry 14). Safe: the
  model would stop where the hardware's behaviour is not given. -/
  | fetchOutsideStore
deriving DecidableEq, Repr

/-- The reasons a step could refuse an instruction. -/
inductive Refusal where
  /-- Raised by an arm of `exec` whose instruction has no meaning yet; there is none such. Safe: the
  model stops. -/
  | notModelled (mnemonic : String)
deriving DecidableEq, Repr

/-- Ports with nothing asserted. The spec gives inputs no reset value (DESIGN CHOICE, log entry 7). -/
def InputPorts.idle : InputPorts :=
  { rst := false
    restoreValid := false
    restoreRegs := Vector.replicate 32 0#32
    restorePc := 0#32
    cfgQuota := 0#Config.quotaw
    start := false }

/-- The machine right after reset (R27, R170): registers, `pc` and `steps` 0, READY, no event. The run
inputs `quota`, `imem` and `ports` have no reset value in the spec (DESIGN CHOICE, log entry 7). -/
def State.reset : State :=
  { regs := Vector.replicate 31 0#32
    pc := 0#32
    steps := 0#Config.quotaw
    runState := .ready
    quota := 0#Config.quotaw
    events := []
    outcomes := []
    imem := .words []
    ports := InputPorts.idle }

end Sys2Proof.Machine
end

