-- ==== Sys2Proof/Machine/Operands.lean ====
section
/-! DEFINITION. Reading and writing registers (spec/10_state.md R10, R11, R13), the ALU (files 40 to 42) and
the decoder's control outputs (spec/30_encoding.md R70). -/

namespace Sys2Proof.Machine

/-! ## Registers -/

/-- The cell of register `r`, for `r` not 0. -/
def regCell (r : RegIdx) : Fin 31 := ⟨r.toNat - 1, by have := r.isLt; omega⟩

/-- `x[r]` (R10, R11): register 0 reads 0. -/
def RegFile.read (rf : RegFile) (r : RegIdx) : Word :=
  if r = 0#5 then 0#32 else rf.get (regCell r)

/-- `x[r] <- v` (R11): "if idx > 0 then registers[idx] = value else no-op". -/
def RegFile.write (rf : RegFile) (r : RegIdx) (v : Word) : RegFile :=
  if r = 0#5 then rf else rf.set (regCell r).val v

/-- `x[r]` of a state. -/
def State.readReg (s : State) (r : RegIdx) : Word := RegFile.read s.regs r

/-- `x[r] <- v` on a state. -/
def State.writeReg (s : State) (r : RegIdx) (v : Word) : State :=
  { s with regs := RegFile.write s.regs r v }

/-- The 32 register indices in order. -/
def allRegs : List RegIdx := (List.range 32).map (BitVec.ofNat 5)

/-- `[ x[0], x[1], ..., x[31] ]` (R110, R43). -/
def State.regValues (s : State) : List Word := allRegs.map s.readReg

/-! ## ALU functions -/

/-- PASS: the result is B (R70, R80). -/
def aluPass (b : Word) : Word := b

/-- ADD: `wrap32(s(a) + s(b))` (R81, R83, R85). -/
def aluAdd (a b : Word) : Word := wrap32 (a.toInt + b.toInt)

/-- SUB: `wrap32(s(a) - s(b))` (R82, R85). -/
def aluSub (a b : Word) : Word := wrap32 (a.toInt - b.toInt)

/-- MUL: `wrap32(s(a) * s(b))`, the low 32 bits of the product (R84, R85). -/
def aluMul (a b : Word) : Word := wrap32 (a.toInt * b.toInt)

/-- AND, bit by bit (R90, R95). -/
def aluAnd (a b : Word) : Word := a &&& b

/-- OR, bit by bit (R91 to R93, R95). -/
def aluOr (a b : Word) : Word := a ||| b

/-- XOR, bit by bit (R94, R95). -/
def aluXor (a b : Word) : Word := a ^^^ b

/-- The amount of a shift, `sh(imm)` (R102): the low five bits under `mask5`; under `skip` there is none
when `s(imm)` is outside 0 to 31. -/
def shiftAmount (p : ShamtPolicy) (imm : Word) : Option Nat :=
  match p with
  | .mask5 => some (imm.extractLsb' 0 5).toNat
  | .skip => if 0 ≤ imm.toInt ∧ imm.toInt ≤ 31 then some imm.toNat else none

/-- SLL: `shl(v, n) = wrap32(u(v) * 2^n)` (R102, R100). -/
def aluShl (v : Word) (n : Nat) : Word := wrap32 ((v.toNat * 2 ^ n : Nat) : Int)

/-- SRL: `shr(v, n) = wrap32(floor(u(v) / 2^n))` (R102, R101). -/
def aluShr (v : Word) (n : Nat) : Word := wrap32 ((v.toNat / 2 ^ n : Nat) : Int)

/-! ## The control table -/

/-- The ALU's nine functions (R70). -/
inductive AluFn where
  | pass | add | sub | mul | and | or | xor | sll | srl
deriving DecidableEq, Repr

/-- The B multiplexer's select with what it selects (R70). -/
inductive BSelect where
  | register (rt : RegIdx)
  | immediate (imm : Word)
deriving DecidableEq, Repr

/-- The ALU side of a row of the control table: operand A (none where unused), operand B, the function
and the destination; the row's write enable is 1 (R70). -/
structure AluControl where
  a : Option RegIdx
  b : BSelect
  fn : AluFn
  rd : RegIdx
deriving DecidableEq, Repr

/-- What the decoder drives for one Decoded record (R70): an ALU operation with a register write, a dump
event, a checkpoint event, or nothing. -/
inductive Control where
  | alu (c : AluControl)
  | emitDump
  | emitCheckpoint (name : SnapshotName)
  | idle
deriving DecidableEq, Repr

/-- The control table (R70). -/
def controlOf (i : Instr) : Control :=
  match i with
  | .li rd imm => .alu ⟨none, .immediate imm, .pass, rd⟩
  | .add rd rs rt => .alu ⟨some rs, .register rt, .add, rd⟩
  | .sub rd rs rt => .alu ⟨some rs, .register rt, .sub, rd⟩
  | .addi rd rs imm => .alu ⟨some rs, .immediate imm, .add, rd⟩
  | .mul rd rs rt => .alu ⟨some rs, .register rt, .mul, rd⟩
  | .and rd rs rt => .alu ⟨some rs, .register rt, .and, rd⟩
  | .or rd rs rt => .alu ⟨some rs, .register rt, .or, rd⟩
  | .ori rd rs imm => .alu ⟨some rs, .immediate imm, .or, rd⟩
  | .xor rd rs rt => .alu ⟨some rs, .register rt, .xor, rd⟩
  | .sll rd rs imm => .alu ⟨some rs, .immediate imm, .sll, rd⟩
  | .srl rd rs imm => .alu ⟨some rs, .immediate imm, .srl, rd⟩
  | .dump => .emitDump
  | .snapshot name => .emitCheckpoint name
  | .orl rd rs imm => .alu ⟨some rs, .immediate imm, .or, rd⟩
  | .skip => .idle

/-- The destination register of an instruction, where it has one (R13). -/
def destReg (i : Instr) : Option RegIdx :=
  match controlOf i with
  | .alu c => some c.rd
  | .emitDump => none
  | .emitCheckpoint _ => none
  | .idle => none

/-- The B operand: the multiplexer's output (R70). -/
def operandB (b : BSelect) (s : State) : Word :=
  match b with
  | .register rt => s.readReg rt
  | .immediate imm => imm

/-- The A operand; unused reads as 0 and PASS ignores it (R70). -/
def operandA (a : Option RegIdx) (s : State) : Word :=
  match a with
  | some rs => s.readReg rs
  | none => 0#32

/-- The ALU (R70): no result where a shift has no amount under the policy (R102). -/
def alu (p : ShamtPolicy) (fn : AluFn) (a b : Word) : Option Word :=
  match fn with
  | .pass => some (aluPass b)
  | .add => some (aluAdd a b)
  | .sub => some (aluSub a b)
  | .mul => some (aluMul a b)
  | .and => some (aluAnd a b)
  | .or => some (aluOr a b)
  | .xor => some (aluXor a b)
  | .sll => (shiftAmount p b).map (aluShl a)
  | .srl => (shiftAmount p b).map (aluShr a)

end Sys2Proof.Machine
end

