-- ==== Sys2Proof/Machine/Flags.lean ====
section
/-! DEFINITION. The core has no arithmetic flags (spec/10_state.md R21). What it has are the program
length, the loop condition and the two halt conditions (spec/44_state_machine.md R127, R133). -/

namespace Sys2Proof.Machine

/-- The number of entries of the instruction store. -/
def IMem.size (m : IMem) : Nat :=
  match m with
  | .words ws => ws.length
  | .text ts => ts.length

/-- `LEN` (R19): the store's number of entries by construction (R172), at most `LEN_MAX` (log entry 2). -/
def IMem.len (m : IMem) : Word := BitVec.ofNat 32 (min m.size Config.lenMax)

/-- Entry `i` of the store (R31). -/
def IMem.entry (m : IMem) (i : Nat) : Option StoreEntry :=
  match m with
  | .words ws => (ws[i]?).map .word
  | .text ts => (ts[i]?).map .text

/-- The well-formedness of the instruction store: `LEN <= LEN_MAX` (R19). A list has one form, so there
is no other condition. -/
def Memory.wf (m : IMem) : Bool := m.size ≤ Config.lenMax

/-- `pc >= LEN` (R133). -/
def State.atEnd (s : State) : Bool := s.imem.len ≤ s.pc

/-- `steps >= quota` (R133). -/
def State.quotaReached (s : State) : Bool := s.quota ≤ s.steps

/-- `can_step := (pc < LEN) and (steps < quota)`, both unsigned (R127). -/
def State.canStep (s : State) : Bool := s.pc < s.imem.len && s.steps < s.quota

end Sys2Proof.Machine
end

