-- ==== Sys2Proof/Machine/Snapshot.lean ====
section
/-! DEFINITION. The snapshot record and its inverse (spec/20_memory.md R43, R44). -/

namespace Sys2Proof.Machine

/-- The record of 32 register values and a saved `pc` (R43): every field in the given byte order. -/
def encodeRecord (e : SnapEndian) (values : List Word) (savedPc : Word) : List Byte :=
  values.flatMap (wordBytes e) ++ wordBytes e savedPc

/-- The 32-bit fields of a record, in order. -/
def recordFields (e : SnapEndian) (bytes : List Byte) : List Word :=
  match bytes with
  | b0 :: b1 :: b2 :: b3 :: rest => bytesWord e b0 b1 b2 b3 :: recordFields e rest
  | _ => []

/-- The inverse map of R43: defined for records of exactly 132 bytes. -/
def decodeRecord (e : SnapEndian) (bytes : List Byte) : Option VMState :=
  if bytes.length = Config.snapBytes then
    let fields := recordFields e bytes
    some { regs := Vector.ofFn fun i : Fin 32 => fields.getD i.val 0#32, pc := fields.getD 32 0#32 }
  else none

/-- The VMState of a state: its 32 register values and its `pc` (R23). -/
def State.vmState (s : State) : VMState :=
  { regs := Vector.ofFn fun i : Fin 32 => s.readReg (BitVec.ofNat 5 i.val), pc := s.pc }

/-- The record a `SNAPSHOT` step emits: `saved_pc <- pc + 1` (R111). -/
def State.snapshotRecord (e : SnapEndian) (s : State) : List Byte :=
  encodeRecord e s.regValues (s.pc + 1#32)

end Sys2Proof.Machine
end

