-- ==== Sys2Proof/Machine/Ops.lean ====
section
/-! DEFINITION. The named operations of a step: finishing the execute phase, emitting events, advance, halt,
reset, restore and start. The hardware takes no exception and returns from none
(spec/60_exceptions.md R150, R153, R154), so there is no operation for either. -/

namespace Sys2Proof.Machine

/-- The step outcome `o` is recorded (R130). -/
def State.withOutcome (s : State) (o : StepOutcome) : State :=
  { s with outcomes := s.outcomes ++ [o] }

/-- `emit e` (R24): the event is appended to the output event sequence. -/
def State.emit (s : State) (e : Event) : State := { s with events := s.events ++ [e] }

/-- The end of every register-writing instruction (R86): the result goes through the zero-port rule and the
outcome is EXECUTED. -/
def writeResult (rd : RegIdx) (v : Word) (s : State) : Host.Outcome State Fault Refusal :=
  .next ((s.writeReg rd v).withOutcome .executed)

/-- The end of the two instructions that emit an event (R110, R111): no register is written and the outcome is
EXECUTED. -/
def emitEvent (e : Event) (s : State) : Host.Outcome State Fault Refusal :=
  .next ((s.emit e).withOutcome .executed)

/-- The skip (R112): nothing, with the outcome SKIPPED. -/
def skipInstr (s : State) : Host.Outcome State Fault Refusal := .next (s.withOutcome .skipped)

/-- The end of a shift (R102): its result, or a skip where the policy gives the amount no meaning. -/
def writeShift (rd : RegIdx) (v : Option Word) (s : State) : Host.Outcome State Fault Refusal :=
  match v with
  | some r => writeResult rd r s
  | none => skipInstr s

/-- The advance phase (R132). -/
def State.advance (s : State) : State := { s with pc := s.pc + 1#32, steps := s.steps + 1#Config.quotaw }

/-- HALTED as soon as `can_step` is false (R133). -/
def State.haltCheck (s : State) : State :=
  { s with runState := if s.canStep then s.runState else .halted }

/-- HALTED (R133): nothing else changes. -/
def State.halt (s : State) : State := { s with runState := .halted }

/-- `rst` (R170): every piece of state at its reset value. The instruction store and the ports are inputs and
stay (log entry 7). -/
def State.resetCore (s : State) : State := { State.reset with imem := s.imem, ports := s.ports }

/-- Restore (R136): `x[1]` to `x[31]` and `pc` are loaded, slot 0 is ignored (D12). -/
def State.restore (s : State) (vm : VMState) : State :=
  { s with
    regs := Vector.ofFn fun i : Fin 31 => vm.regs.get i.succ
    pc := vm.pc }

/-- Start (R126): `quota` is sampled, `steps <- 0`, RUNNING. Nothing else changes. -/
def State.startRun (s : State) : State :=
  { s with quota := s.ports.cfgQuota, steps := 0#Config.quotaw, runState := .running }

/-- The initial VMState on the restore port (R26). -/
def InputPorts.initialState (p : InputPorts) : VMState := { regs := p.restoreRegs, pc := p.restorePc }

/-- A restore, if one is asserted (R136). -/
def State.restoreIfAsserted (s : State) : State :=
  if s.ports.restoreValid then s.restore s.ports.initialState else s

/-- A start, if one is asserted (R126). -/
def State.startIfAsserted (s : State) : State := if s.ports.start then s.startRun else s

/-- What a step does in READY: restore, then start, each where asserted, in the order of R171
(log entries 4, 5). -/
def State.readyStep (s : State) : State := s.restoreIfAsserted.startIfAsserted

/-- A list of words that has `w` at index `i`: the entries before `i` stay, missing ones are canonical skips. -/
def placeAt (ws : List InstrWord) (i : Nat) (w : InstrWord) : List InstrWord :=
  ws.take i ++ List.replicate (i - ws.length) skipWord ++ w :: ws.drop (i + 1)

/-- The store with `w` at index `i`. A text-level store holds no words and is replaced. -/
def IMem.placeWord (m : IMem) (i : Nat) (w : InstrWord) : IMem :=
  match m with
  | .words ws => .words (placeAt ws i w)
  | .text _ => .words (placeAt [] i w)

/-- A state whose next step fetches and runs `w` (log entry 8): `w` stands at index `pc`, the core is RUNNING,
`rst` is not asserted and the quota allows a step. Index 2^32 - 1 is beyond every store (R19) and a step
counter with every bit set is beyond every quota (R17): there the counter is 0. -/
def State.placeFetch (s : State) (w : InstrWord) : State :=
  let pc := if s.pc = 0xFFFFFFFF#32 then 0#32 else s.pc
  let steps := if s.steps = BitVec.allOnes Config.quotaw then 0#Config.quotaw else s.steps
  { s with
    pc := pc
    steps := steps
    quota := if steps < s.quota then s.quota else steps + 1#Config.quotaw
    runState := .running
    imem := s.imem.placeWord pc.toNat w
    ports := { s.ports with rst := false } }

end Sys2Proof.Machine
end

