-- ==== Sys2Proof/Machine/Arith.lean ====
section
/-! DEFINITION. The arithmetic instructions (spec/40_arith.md R80 to R86). -/

namespace Sys2Proof.Machine

/-- `li rd, imm` (R80): `x[rd] <- imm`. -/
def execLi (rd : RegIdx) (imm : Word) (s : State) : Host.Outcome State Fault Refusal :=
  writeResult rd (aluPass imm) s

/-- `add rd, rs, rt` (R81): `x[rd] <- wrap32(s(x[rs]) + s(x[rt]))`. -/
def execAdd (rd rs rt : RegIdx) (s : State) : Host.Outcome State Fault Refusal :=
  writeResult rd (aluAdd (s.readReg rs) (s.readReg rt)) s

/-- `sub rd, rs, rt` (R82): `x[rd] <- wrap32(s(x[rs]) - s(x[rt]))`. -/
def execSub (rd rs rt : RegIdx) (s : State) : Host.Outcome State Fault Refusal :=
  writeResult rd (aluSub (s.readReg rs) (s.readReg rt)) s

/-- `addi rd, rs, imm` (R83): `x[rd] <- wrap32(s(x[rs]) + s(imm))`. -/
def execAddi (rd rs : RegIdx) (imm : Word) (s : State) : Host.Outcome State Fault Refusal :=
  writeResult rd (aluAdd (s.readReg rs) imm) s

/-- `mul rd, rs, rt` (R84): `x[rd] <- wrap32(s(x[rs]) * s(x[rt]))`. -/
def execMul (rd rs rt : RegIdx) (s : State) : Host.Outcome State Fault Refusal :=
  writeResult rd (aluMul (s.readReg rs) (s.readReg rt)) s

end Sys2Proof.Machine
end

