-- ==== Sys2Proof/Machine/Logic.lean ====
section
/-! DEFINITION. The bitwise instructions (spec/41_logic.md R90 to R95). -/

namespace Sys2Proof.Machine

/-- `and rd, rs, rt` (R90): `x[rd] <- x[rs] & x[rt]`. -/
def execAnd (rd rs rt : RegIdx) (s : State) : Host.Outcome State Fault Refusal :=
  writeResult rd (aluAnd (s.readReg rs) (s.readReg rt)) s

/-- `or rd, rs, rt`, register form (R91): `x[rd] <- x[rs] | x[rt]`. -/
def execOr (rd rs rt : RegIdx) (s : State) : Host.Outcome State Fault Refusal :=
  writeResult rd (aluOr (s.readReg rs) (s.readReg rt)) s

/-- `or rd, rs, literal`, literal form (R92): `x[rd] <- x[rs] | imm`. -/
def execOrl (rd rs : RegIdx) (imm : Word) (s : State) : Host.Outcome State Fault Refusal :=
  writeResult rd (aluOr (s.readReg rs) imm) s

/-- `ori rd, rs, imm` (R93): `x[rd] <- x[rs] | imm`. -/
def execOri (rd rs : RegIdx) (imm : Word) (s : State) : Host.Outcome State Fault Refusal :=
  writeResult rd (aluOr (s.readReg rs) imm) s

/-- `xor rd, rs, rt` (R94): `x[rd] <- x[rs] ^ x[rt]`. -/
def execXor (rd rs rt : RegIdx) (s : State) : Host.Outcome State Fault Refusal :=
  writeResult rd (aluXor (s.readReg rs) (s.readReg rt)) s

end Sys2Proof.Machine
end

