-- ==== Sys2Proof/Machine/Shift.lean ====
section
/-! DEFINITION. The shift instructions (spec/42_shift.md R100 to R102). -/

namespace Sys2Proof.Machine

/-- `sll rd, rs, shamt` (R100): `x[rd] <- shl(x[rs], sh(imm))`. -/
def execSll (rd rs : RegIdx) (imm : Word) (s : State) : Host.Outcome State Fault Refusal :=
  writeShift rd ((shiftAmount Config.shamtPolicy imm).map (aluShl (s.readReg rs))) s

/-- `srl rd, rs, shamt` (R101): `x[rd] <- shr(x[rs], sh(imm))`. -/
def execSrl (rd rs : RegIdx) (imm : Word) (s : State) : Host.Outcome State Fault Refusal :=
  writeShift rd ((shiftAmount Config.shamtPolicy imm).map (aluShr (s.readReg rs))) s

end Sys2Proof.Machine
end

