-- ==== Sys2Proof/Machine/System.lean ====
section
/-! DEFINITION. The system instructions and the skip (spec/43_system.md R110 to R112). -/

namespace Sys2Proof.Machine

/-- `DUMP_PROCESSOR_STATE` (R110): `emit Dump( [ x[0], ..., x[31] ] )`. -/
def execDump (s : State) : Host.Outcome State Fault Refusal :=
  emitEvent (.dump s.regValues) s

/-- `SNAPSHOT filename` (R111, R131): `emit Checkpoint(name, record)` with the record of `x[0..31]` and
`pc + 1`. -/
def execSnapshot (name : SnapshotName) (s : State) : Host.Outcome State Fault Refusal :=
  emitEvent (.checkpoint name (s.snapshotRecord Config.snapEndian)) s

/-- The skip (R112): no register written, no event, outcome SKIPPED. -/
def execSkip (s : State) : Host.Outcome State Fault Refusal := skipInstr s

end Sys2Proof.Machine
end

