-- ==== Sys2Proof/Machine/Dispatch.lean ====
section
/-! DEFINITION. The execute phase (spec/44_state_machine.md R130): each Decoded record by its rule. -/

namespace Sys2Proof.Machine

def exec (i : Instr) (s : State) : Host.Outcome State Fault Refusal :=
  match i with
  | .li rd imm => Sys2Proof.Machine.execLi rd imm s
  | .add rd rs rt => Sys2Proof.Machine.execAdd rd rs rt s
  | .sub rd rs rt => Sys2Proof.Machine.execSub rd rs rt s
  | .addi rd rs imm => Sys2Proof.Machine.execAddi rd rs imm s
  | .mul rd rs rt => Sys2Proof.Machine.execMul rd rs rt s
  | .and rd rs rt => Sys2Proof.Machine.execAnd rd rs rt s
  | .or rd rs rt => Sys2Proof.Machine.execOr rd rs rt s
  | .ori rd rs imm => Sys2Proof.Machine.execOri rd rs imm s
  | .xor rd rs rt => Sys2Proof.Machine.execXor rd rs rt s
  | .sll rd rs imm => Sys2Proof.Machine.execSll rd rs imm s
  | .srl rd rs imm => Sys2Proof.Machine.execSrl rd rs imm s
  | .dump => Sys2Proof.Machine.execDump s
  | .snapshot name => Sys2Proof.Machine.execSnapshot name s
  | .orl rd rs imm => Sys2Proof.Machine.execOrl rd rs imm s
  | .skip => Sys2Proof.Machine.execSkip s

end Sys2Proof.Machine
end

