-- ==== Sys2Proof/Machine/Step.lean ====
section
/-! DEFINITION. One step of the core (spec/44_state_machine.md R125 to R138), and the placing of a word where the next
step fetches it. -/

namespace Sys2Proof.Machine

/-- A step in RUNNING that may be taken: decode, execute, advance, halt check (R129 to R133, R138). -/
def runEntry (e : StoreEntry) (s : State) : Host.Outcome State Fault Refusal :=
  match exec (decodeEntry e) s with
  | .next t => .next t.advance.haltCheck
  | .fault f => .fault f
  | .refused r => .refused r

/-- A step in RUNNING (R138): halt without fetching where `can_step` is false (R127), else fetch at `pc`
(R128) and run the entry. -/
def runStep (s : State) : Host.Outcome State Fault Refusal :=
  if s.canStep then
    match s.imem.entry s.pc.toNat with
    | some e => runEntry e s
    | none => .fault .fetchOutsideStore
  else .next s.halt

/-- One step: reset where `rst` is asserted, in every run state (R170); else by the run state. READY takes the
restore and start inputs (R126, R136), HALTED keeps everything (R133, R173). -/
def step (s : State) : Host.Outcome State Fault Refusal :=
  if s.ports.rst then .next s.resetCore
  else
    match s.runState with
    | .ready => .next s.readyStep
    | .running => runStep s
    | .halted => .next s

/-- The state with a table word stored where `step` fetches its next instruction, and able to step (log entry 8). -/
def State.withFetchWord (s : State) (nbits w : Nat) : State := s.placeFetch (tableWord nbits w)

end Sys2Proof.Machine
end

