-- ==== Sys2Proof/Machine/Datapath.lean ====
section
/-! DEFINITION. The execute phase as the datapath of spec/30_encoding.md R70 performs it: a second description of
the same machine, driven by the control table alone. -/

namespace Sys2Proof.Machine

/-- The ALU side: operands through the multiplexers, the ALU, the gated register write (R70, R11). -/
def runAlu (p : ShamtPolicy) (c : AluControl) (s : State) : State :=
  match alu p c.fn (operandA c.a s) (operandB c.b s) with
  | some v => (s.writeReg c.rd v).withOutcome .executed
  | none => s.withOutcome .skipped

/-- What the datapath does with a row of the control table (R70). -/
def runControl (p : ShamtPolicy) (e : SnapEndian) (c : Control) (s : State) : State :=
  match c with
  | .alu ac => runAlu p ac s
  | .emitDump => (s.emit (.dump s.regValues)).withOutcome .executed
  | .emitCheckpoint name => (s.emit (.checkpoint name (s.snapshotRecord e))).withOutcome .executed
  | .idle => s.withOutcome .skipped

end Sys2Proof.Machine
end

