-- ==== Sys2Proof/Machine/Loader.lean ====
section
/-! DEFINITION. The source-line syntax (spec/30_encoding.md R45). Splitting lines is the loader collaborator's, outside
the core (spec/00_scope.md R3); it is modelled because the source calls the syntax "an external interface the
core must match exactly". -/

namespace Sys2Proof.Machine

/-- "`#` begins a line comment" wherever it stands (R45, D26). -/
def stripComment (line : List Byte) : List Byte := line.takeWhile (· != 0x23#8)

/-- A text without leading and trailing white space. -/
def trimSpace (line : List Byte) : List Byte :=
  ((line.dropWhile isSpace).reverse.dropWhile isSpace).reverse

/-- The pieces of a text between the separators `sep`; always at least one. -/
def splitAtByte (sep : Byte) (text : List Byte) : List (List Byte) :=
  match text with
  | [] => [[]]
  | b :: rest =>
    if b == sep then [] :: splitAtByte sep rest
    else
      match splitAtByte sep rest with
      | [] => [[b]]
      | piece :: more => (b :: piece) :: more

/-- "comma-separated operands, each trimmed of surrounding whitespace; empty operands after trimming are dropped"
(R45). -/
def splitOperands (text : List Byte) : List Token :=
  ((splitAtByte 0x2C#8 text).map trimSpace).filter fun tok => !tok.isEmpty

/-- One source line (R45): none for a line that is empty, all white space or only a comment; else the mnemonic is
the first white-space-delimited token and the rest are the operands. -/
def tokenizeLine (line : List Byte) : Option TextInstr :=
  let body := trimSpace (stripComment line)
  if body.isEmpty then none
  else
    some
      { mnemonic := body.takeWhile fun b => !isSpace b
        operands := splitOperands (body.dropWhile fun b => !isSpace b) }

/-- A program as the core gets it: one tokenized instruction per line that holds one (R45, R31). -/
def loadLines (lines : List (List Byte)) : List TextInstr := lines.filterMap tokenizeLine

/-- A source text, its lines ended by line feeds (log entry 11). -/
def loadSource (source : List Byte) : List TextInstr := loadLines (splitAtByte 0x0A#8 source)

end Sys2Proof.Machine
end

