-- ==== Sys2Proof/Machine/Ports.lean ====
section
/-! DEFINITION. The output ports (spec/10_state.md R26), each computed from the state, or from the states before
and after a step where the port speaks of one step. -/

namespace Sys2Proof.Machine

/-- READY = 0, RUNNING = 1, HALTED = 2 (R20, D15). -/
def RunState.code (r : RunState) : BitVec 2 :=
  match r with
  | .ready => 0
  | .running => 1
  | .halted => 2

/-- EXECUTED = 1, SKIPPED = 0 (R26, D16). -/
def StepOutcome.code (o : StepOutcome) : BitVec 1 :=
  match o with
  | .executed => 1
  | .skipped => 0

/-- `run_state`. -/
def State.runStatePort (s : State) : BitVec 2 := s.runState.code

/-- `pc_out`. -/
def State.pcOut (s : State) : Word := s.pc

/-- `steps_out`. -/
def State.stepsOut (s : State) : Count := s.steps

/-- `imem_addr`: "equals `pc` in the fetch phase". It has a value exactly where a step fetches: in RUNNING, without
`rst`, with `can_step`. That the port has no value elsewhere is the model's choice (DESIGN CHOICE, log entry 13). -/
def State.imemAddr (s : State) : Option Word :=
  if s.runState = .running ∧ s.ports.rst = false ∧ s.canStep = true then some s.pc else none

/-- `cfg_len`: the number of entries of the store the environment supplies (R172, log entry 2). -/
def State.cfgLen (s : State) : Word := s.imem.len

/-- `halt_end`: given "in HALTED" only; no value elsewhere (log entry 13). -/
def State.haltEndPort (s : State) : Option Bool :=
  if s.runState = .halted then some s.atEnd else none

/-- `halt_quota`: given "in HALTED" only; no value elsewhere (log entry 13). -/
def State.haltQuotaPort (s : State) : Option Bool :=
  if s.runState = .halted then some s.quotaReached else none

/-- `outcome` of the last step of the run, where one was taken. -/
def State.outcomePort (s : State) : Option (BitVec 1) := s.outcomes.getLast?.map (·.code)

/-- The events that the step from `s` to `t` emitted (R24). -/
def emittedEvents (s t : State) : List Event := t.events.drop s.events.length

/-- `dump_valid` and `dump_values` of the step from `s` to `t`. -/
def dumpPort (s t : State) : Option (List Word) :=
  match emittedEvents s t with
  | .dump values :: _ => some values
  | .checkpoint _ _ :: _ => none
  | [] => none

/-- `ckpt_valid`, `ckpt_tag` and `ckpt_record` of the step from `s` to `t`. -/
def checkpointPort (s t : State) : Option (SnapshotName × List Byte) :=
  match emittedEvents s t with
  | .checkpoint name record :: _ => some (name, record)
  | .dump _ :: _ => none
  | [] => none

end Sys2Proof.Machine
end

