-- ==== Sys2Proof/Machine/Environment.lean ====
section
/-! DEFINITION. What the spec says of the environment around the core: loading a snapshot file, reporting failures
(spec/60_exceptions.md R161), setting up a run (spec/70_reset_and_hazards.md R171, R172) and rendering a dump
(spec/43_system.md R115). None of it is state of the core. -/

namespace Sys2Proof.Machine

/-- The four conditions R161 names "so that a model of the environment can carry them as a value". -/
inductive EnvReport where
  | loadError
  | snapshotAbsent
  | snapshotCorruptSize
  | snapshotSaveFailed
deriving DecidableEq, Repr

/-- The record that `partial` loading makes of a file: "the first `min(size, 132)` bytes of the file fill the record
from offset 0, the remaining bytes of the record are zero" (R161). -/
def padRecord (bytes : List Byte) : List Byte :=
  (bytes ++ List.replicate Config.snapBytes 0#8).take Config.snapBytes

/-- Loading a snapshot file (R161): absent, present with 132 bytes, or of a corrupt size. -/
def loadSnapshotFile (p : CorruptSnapshotPolicy) (e : SnapEndian) (file : Option (List Byte)) :
    Option VMState × List EnvReport :=
  match file with
  | none => (none, [.snapshotAbsent])
  | some bytes =>
    if bytes.length = Config.snapBytes then (decodeRecord e bytes, [])
    else
      match p with
      | .reject => (none, [.snapshotCorruptSize])
      | .partialLoad => (decodeRecord e (padRecord bytes), [.snapshotCorruptSize])

/-- What the session runner is handed for one VM (R3, R25): the instruction source and the quota, each none where its
configuration key or what it names is missing (R161); the initial snapshot, if one is asked for, with the file's
contents, if it exists. With them what the environment brings to the saves: the program's tag table (R68, R172) and the
names of files that cannot be written (R161). -/
structure RunRequest where
  source : Option IMem
  snapshot : Option (Option (List Byte))
  quota : Option Count
  names : List Token
  unwritable : List Token
deriving DecidableEq, Repr

/-- The program and the quota of a request, where the configuration gives both: "missing instruction source, missing
config key" (R161). -/
def RunRequest.configured (r : RunRequest) : Option (IMem × Count) :=
  match r.source, r.quota with
  | some m, some quota => some (m, quota)
  | some _, none => none
  | none, _ => none

/-- The initial VMState of a request and what is reported (R161), under the configured policies. -/
def RunRequest.initial (r : RunRequest) : Option VMState × List EnvReport :=
  match r.snapshot with
  | none => (none, [])
  | some file => loadSnapshotFile Config.corruptSnapshotPolicy Config.snapEndian file

/-- The ports of a run that is set up: restore asserted where there is an initial state, start asserted, the quota
(R26, R171). -/
def setUpPorts (initial : Option VMState) (quota : Count) : InputPorts :=
  match initial with
  | none => { InputPorts.idle with cfgQuota := quota, start := true }
  | some vm =>
    { InputPorts.idle with
      restoreValid := true
      restoreRegs := vm.regs
      restorePc := vm.pc
      cfgQuota := quota
      start := true }

/-- The core after `rst` with the environment's hands on the ports (R171, steps 1 to 3). -/
def setUp (m : IMem) (initial : Option VMState) (quota : Count) : State :=
  { State.reset with imem := m, ports := setUpPorts initial quota }

/-- The set-up state and the reports of a request: on a configuration or load error "`start` is never asserted for that
VM; the core stays in READY at its reset state" (R161). The snapshot is then not looked at, so that such a VM has the
one report `loadError`, whatever its snapshot file (DESIGN CHOICE, log entry 23). -/
def RunRequest.prepare (r : RunRequest) : State × List EnvReport :=
  match r.configured with
  | none => (State.reset, [.loadError])
  | some (m, quota) => (setUp m r.initial.1 quota, r.initial.2)

/-- The filename an event's name stands for: a tag by the program's table of names, a token as it is (R68). -/
def resolveName (names : List Token) (n : SnapshotName) : Option Token :=
  match n with
  | .tag t => names[t.toNat]?
  | .file name => some name

/-- What the environment reports on an event (R161): a checkpoint whose tag has no entry, or whose file cannot be
written, is `SnapshotSaveFailed`. Nothing returns to the core (D22). -/
def saveReport (names unwritable : List Token) (e : Event) : List EnvReport :=
  match e with
  | .dump _ => []
  | .checkpoint n _ =>
    match resolveName names n with
    | none => [.snapshotSaveFailed]
    | some name => if unwritable.contains name then [.snapshotSaveFailed] else []

/-- One line of a rendered dump: prefix, index, `=`, signed decimal value, line feed (R115). -/
def renderLine (label : List Byte) (index : Nat) (value : Word) : List Byte :=
  label ++ decimalNat index ++ [0x3D#8] ++ decimalInt value.toInt ++ [0x0A#8]

/-- The lines of a rendered dump from index `k` on. -/
def renderFrom (label : List Byte) (k : Nat) (values : List Word) : List Byte :=
  match values with
  | [] => []
  | v :: rest => renderLine label k v ++ renderFrom label (k + 1) rest

/-- A dump event as text (R115): one line per register in index order. -/
def renderDump (values : List Word) : List Byte := renderFrom Config.dumpPrefix 0 values

end Sys2Proof.Machine
end

