-- ==== Sys2Proof/Machine/Session.lean ====
section
/-! DEFINITION. Whole runs and sessions (spec/44_state_machine.md R134, R138; spec/60_exceptions.md R158). -/

namespace Sys2Proof.Machine

/-- `n_steps = min(quota, max(0, LEN - p0))` (R134), for a run that starts at `p0`. -/
def runLength (m : IMem) (quota : Count) (p0 : Word) : Nat := min quota.toNat (m.len.toNat - p0.toNat)

/-- `k` steps of the core from `s`, stopping at the first fault or refusal. -/
def stepMany (k : Nat) (s : State) : Host.Outcome State Fault Refusal :=
  match k with
  | 0 => .next s
  | k + 1 =>
    match step s with
    | .next t => stepMany k t
    | .fault f => .fault f
    | .refused r => .refused r

/-- The index a run starts at: the restored `pc`, or 0 (R171). -/
def entryPoint (initial : Option VMState) : Word :=
  match initial with
  | none => 0#32
  | some vm => vm.pc

/-- `run(config)` (R138): the set-up state, the step that starts it, `n_steps` instructions, and the step that finds a
bound already reached where there are none. -/
def run (m : IMem) (initial : Option VMState) (quota : Count) : Host.Outcome State Fault Refusal :=
  stepMany (runLength m quota (entryPoint initial) + 2) (setUp m initial quota)

/-- What the environment reports on the events of a run, in their order (R161). -/
def RunRequest.saveReports (r : RunRequest) (o : Host.Outcome State Fault Refusal) : List EnvReport :=
  match o with
  | .next t => t.events.flatMap (saveReport r.names r.unwritable)
  | .fault _ => []
  | .refused _ => []

/-- One VM of a session (R161) with everything that is reported on it: of the snapshot load, then of the saves. A VM
whose configuration lacks the program or the quota is skipped and its core stays in READY. -/
def runRequest (r : RunRequest) : Host.Outcome State Fault Refusal × List EnvReport :=
  match r.configured with
  | none => (.next State.reset, [.loadError])
  | some (m, quota) =>
    let o := run m r.initial.1 quota
    (o, r.initial.2 ++ r.saveReports o)

/-- A session: "VMs run strictly in specification order; each VM's results/output are independent" (R158, D23). -/
def runSession (rs : List RunRequest) : List (Host.Outcome State Fault Refusal × List EnvReport) :=
  rs.map runRequest

end Sys2Proof.Machine
end

