-- ==== Sys2Proof/Safety.lean ====
section
/-! DEFINITION. What the statements speak of: the invariant of the core, what an instruction leaves unchanged, and
states that differ in their output only. -/

namespace Sys2Proof.Machine

/-- An event has the shape R24, R110 and R43 give it: 32 values with the value of register 0 first and zero, or a
record of 132 bytes with the slot of register 0 zero. -/
def Event.wf (e : Event) : Bool :=
  match e with
  | .dump values => values.length == 32 && values.head? == some 0#32
  | .checkpoint _ record =>
    record.length == Config.snapBytes && record.take 4 == List.replicate 4 0#8

/-- The invariant of the core. The store is within `LEN_MAX` (R19); READY is a state in which no step of the run has been
taken (R20, R126); the step counter never exceeds the quota in RUNNING and HALTED (R17); HALTED means that a bound is
reached (R133); every step has one outcome (R130) and at most one event (R24); every event is well formed. -/
structure State.Inv (s : State) : Prop where
  store : Memory.wf s.imem = true
  ready : s.runState = .ready → s.steps = 0#Config.quotaw
  bounded : s.runState ≠ .ready → s.steps ≤ s.quota
  halted : s.runState = .halted → s.canStep = false
  oneOutcome : s.outcomes.length = s.steps.toNat
  oneEvent : s.events.length ≤ s.steps.toNat
  events : s.events.all Event.wf = true

/-- Everything the execute phase of no instruction changes: `pc`, `steps`, the run state and the run inputs (R130,
R132, R41). -/
def SameControl (s t : State) : Prop :=
  t.pc = s.pc ∧ t.steps = s.steps ∧ t.runState = s.runState ∧ t.quota = s.quota ∧ t.imem = s.imem ∧ t.ports = s.ports

/-- `t` is `s` with `v` written to register `rd` through the zero-port rule, the outcome EXECUTED, and nothing else
changed (R86). -/
def WritesReg (s t : State) (rd : RegIdx) (v : Word) : Prop :=
  (∀ r : RegIdx, t.readReg r = if r = rd ∧ r ≠ 0#5 then v else s.readReg r) ∧
    t.events = s.events ∧ t.outcomes = s.outcomes ++ [.executed] ∧ SameControl s t

/-- `t` is `s` with `e` appended to the events, the outcome EXECUTED, and nothing else changed (R110, R111). -/
def EmitsEvent (s t : State) (e : Event) : Prop :=
  (∀ r : RegIdx, t.readReg r = s.readReg r) ∧
    t.events = s.events ++ [e] ∧ t.outcomes = s.outcomes ++ [.executed] ∧ SameControl s t

/-- `t` is `s` with the outcome SKIPPED and nothing else changed (R112). -/
def SkipsOnly (s t : State) : Prop :=
  (∀ r : RegIdx, t.readReg r = s.readReg r) ∧
    t.events = s.events ∧ t.outcomes = s.outcomes ++ [.skipped] ∧ SameControl s t

/-- Two states that agree in everything a step could read but for what has been output (R24). -/
def SameButOutput (s t : State) : Prop :=
  t = { s with events := t.events, outcomes := t.outcomes }

/-- The word with the given numbers at bits 63:56, 52:48, 44:40, 36:32 and 31:0 (R60), by place value. -/
def fieldsWord (op rd rs rt imm : Nat) : InstrWord :=
  BitVec.ofNat Config.iwlen (op * 2 ^ 56 + rd * 2 ^ 48 + rs * 2 ^ 40 + rt * 2 ^ 32 + imm)

/-- The number a literal of decimal digits spells, with its sign (R52). -/
def literalValue (negative : Bool) (digits : List Byte) : Int :=
  if negative then -(decimalValue digits : Int) else decimalValue digits

/-- A string of at least one decimal digit and nothing else (R50, R52). -/
def DigitString (ds : List Byte) : Prop := ds ≠ [] ∧ ∀ b ∈ ds, 0x30 ≤ b.toNat ∧ b.toNat ≤ 0x39

/-- An event with its filename replaced by its tag (R67, R68). -/
def Event.withTag (names : List Token) (e : Event) : Event :=
  match e with
  | .dump values => .dump values
  | .checkpoint (.tag t) record => .checkpoint (.tag t) record
  | .checkpoint (.file name) record => .checkpoint (.tag (tagOf names name)) record

/-- A state that runs a text program, with the program assembled and the filenames of its events replaced by their
tags (R66, R67): the same machine at the binary level. -/
def State.assembled (ts : List TextInstr) (s : State) : State :=
  { s with
    imem := .words (assembleProgram ts)
    events := s.events.map (Event.withTag (nameTable ts)) }

end Sys2Proof.Machine
end

