-- ==== Sys2Proof/Certificates/Slice0/Obligations.lean ====
section
/-! DEFINITION. The statements for the provers. Each docstring names the rule of spec/ it formalises. -/

open Sys2Proof Sys2Proof.Machine

/-! ## Encoding, binary level -/

/-- R69 and the vectors 2.4 of 95_test_vectors.md: words written out in the spec decode to the instructions they
stand for, one per format and one reserved. -/
def Obligations.SampleWordsDecode : Prop :=
  decodeWord 0x010200000000000A#64 = .li 2#5 10#32 ∧
  decodeWord 0x0308090A00000000#64 = .sub 8#5 9#5 10#5 ∧
  decodeWord 0x04080900FFFFFFF9#64 = .addi 8#5 9#5 0xFFFFFFF9#32 ∧
  decodeWord 0x0E080900000000FF#64 = .orl 8#5 9#5 255#32 ∧
  decodeWord 0x0B08090000000001#64 = .srl 8#5 9#5 1#32 ∧
  decodeWord 0x0C00000000000000#64 = .dump ∧
  decodeWord 0x0D00000000000007#64 = .snapshot (.tag 7#32) ∧
  decodeWord 0x0220000000000000#64 = .skip ∧
  decodeTableWord 64 0x0510111200000000 = some (.mul 16#5 17#5 18#5)

/-- R65, an inference the spec marks as its own ("derived: each non-SKIP row fixes every bit"): `encode` places the opcode of R62 and the fields, and is inverse to `decode_word` on every Decoded record the
binary level can spell and on every word that is not a skip. -/
def Obligations.EncodeDecodeInverse : Prop :=
  (∀ rd rs rt : RegIdx, ∀ imm : Word,
    encode (.li rd imm) = some (fieldsWord 0x01 rd.toNat 0 0 imm.toNat) ∧
    encode (.add rd rs rt) = some (fieldsWord 0x02 rd.toNat rs.toNat rt.toNat 0) ∧
    encode (.sub rd rs rt) = some (fieldsWord 0x03 rd.toNat rs.toNat rt.toNat 0) ∧
    encode (.addi rd rs imm) = some (fieldsWord 0x04 rd.toNat rs.toNat 0 imm.toNat) ∧
    encode (.mul rd rs rt) = some (fieldsWord 0x05 rd.toNat rs.toNat rt.toNat 0) ∧
    encode (.and rd rs rt) = some (fieldsWord 0x06 rd.toNat rs.toNat rt.toNat 0) ∧
    encode (.or rd rs rt) = some (fieldsWord 0x07 rd.toNat rs.toNat rt.toNat 0) ∧
    encode (.ori rd rs imm) = some (fieldsWord 0x08 rd.toNat rs.toNat 0 imm.toNat) ∧
    encode (.xor rd rs rt) = some (fieldsWord 0x09 rd.toNat rs.toNat rt.toNat 0) ∧
    encode (.sll rd rs imm) = some (fieldsWord 0x0A rd.toNat rs.toNat 0 imm.toNat) ∧
    encode (.srl rd rs imm) = some (fieldsWord 0x0B rd.toNat rs.toNat 0 imm.toNat) ∧
    encode .dump = some (fieldsWord 0x0C 0 0 0 0) ∧
    encode (.snapshot (.tag imm)) = some (fieldsWord 0x0D 0 0 0 imm.toNat) ∧
    encode (.orl rd rs imm) = some (fieldsWord 0x0E rd.toNat rs.toNat 0 imm.toNat) ∧
    encode .skip = some (0x0000000000000000#64)) ∧
  (∀ i : Instr, i.wellFormed = true → ∃ w, encode i = some w ∧ decodeWord w = i) ∧
  (∀ w : InstrWord, decodeWord w ≠ .skip → encode (decodeWord w) = some w)

/-- R62, sentence "The rows are mutually exclusive because their `op` values differ": at most one row of the opcode map
admits a word. -/
def Obligations.OpcodeRowsExclusive : Prop :=
  ∀ (w : InstrWord) (j k : Fin opcodeRows.length),
    (opcodeRows.get j).admits w = true → (opcodeRows.get k).admits w = true → j = k

/-- R64, with the must-be-zero bits of R61 and the effect of R112: a word of an unassigned opcode, or with a 1 in a
bit its format requires to be 0, decodes to the skip, and does not trap. That the outcome enters a sequence in the
state is the model's choice (log entry 6). -/
def Obligations.ReservedWordsAreSkips : Prop :=
  ∀ (w : InstrWord) (op : Nat), op = (w.extractLsb' 56 8).toNat →
    (op = 0x00 ∨ 0x0F ≤ op ∨
      (op ∈ [0x02, 0x03, 0x05, 0x06, 0x07, 0x09] ∧
        (w.extractLsb' 53 3 ≠ 0#3 ∨ w.extractLsb' 45 3 ≠ 0#3 ∨ w.extractLsb' 37 3 ≠ 0#3 ∨ w.extractLsb' 0 32 ≠ 0#32)) ∨
      (op ∈ [0x04, 0x08, 0x0A, 0x0B, 0x0E] ∧
        (w.extractLsb' 53 3 ≠ 0#3 ∨ w.extractLsb' 45 3 ≠ 0#3 ∨ w.extractLsb' 32 8 ≠ 0#8)) ∨
      (op = 0x01 ∧ (w.extractLsb' 53 3 ≠ 0#3 ∨ w.extractLsb' 32 16 ≠ 0#16)) ∨
      (op = 0x0C ∧ w.extractLsb' 0 56 ≠ 0#56) ∨
      (op = 0x0D ∧ w.extractLsb' 32 24 ≠ 0#24)) →
    decodeWord w = .skip ∧ ∀ s : State, ∃ t, exec (decodeWord w) s = .next t ∧ SkipsOnly s t

/-! ## Operand resolution and decoding, text level -/

/-- R50 with the table of R12: `resolve_register` answers `r` exactly for `$` and digits of value `r`, and for the
symbolic name of `r`. -/
def Obligations.RegisterTokensResolve : Prop :=
  ∀ (tok : Token) (r : RegIdx),
    resolveRegister tok = some r ↔
      (∃ ds, tok = 0x24#8 :: ds ∧ DigitString ds ∧ decimalValue ds = r.toNat) ∨
      ["$zero", "$at", "$v0", "$v1", "$a0", "$a1", "$a2", "$a3", "$t0", "$t1", "$t2", "$t3", "$t4", "$t5", "$t6",
        "$t7", "$s0", "$s1", "$s2", "$s3", "$s4", "$s5", "$s6", "$s7", "$t8", "$t9", "$k0", "$k1", "$gp", "$sp",
        "$fp", "$ra"][r.toNat]?.map ascii = some tok

/-- R52: `resolve_immediate` answers exactly for an optional sign and digits whose value is in the signed 32-bit range,
and answers that value. -/
def Obligations.LiteralTokensResolve : Prop :=
  ∀ (tok : Token) (v : Word),
    resolveImmediate tok = some v ↔
      ∃ negative ds,
        ((negative = false ∧ tok = ds) ∨ (negative = false ∧ tok = 0x2B#8 :: ds) ∨ (negative = true ∧ tok = 0x2D#8 :: ds)) ∧
        DigitString ds ∧ -2147483648 ≤ literalValue negative ds ∧ literalValue negative ds ≤ 2147483647 ∧
        v.toInt = literalValue negative ds

/-- R53: the third operand of `or` is a register if it resolves as one, else a literal, else the instruction is a skip;
no other mnemonic has a dual operand. -/
def Obligations.OrOperandMultiplexer : Prop :=
  (∀ a b c rd rs, resolveRegister a = some rd → resolveRegister b = some rs →
    (∀ rt, resolveRegister c = some rt → decodeText ⟨ascii "or", [a, b, c]⟩ = .or rd rs rt) ∧
    (∀ imm, resolveRegister c = none → resolveImmediate c = some imm →
      decodeText ⟨ascii "or", [a, b, c]⟩ = .orl rd rs imm) ∧
    (resolveRegister c = none → resolveImmediate c = none → decodeText ⟨ascii "or", [a, b, c]⟩ = .skip)) ∧
  (∀ mn ∈ ["add", "sub", "mul", "and", "xor"], ∀ a b c imm, resolveImmediate c = some imm →
    decodeText ⟨ascii mn, [a, b, c]⟩ = .skip) ∧
  (∀ mn ∈ ["addi", "ori", "sll", "srl"], ∀ a b c rt, resolveRegister c = some rt →
    decodeText ⟨ascii mn, [a, b, c]⟩ = .skip) ∧
  (∀ a b r, resolveRegister b = some r → decodeText ⟨ascii "li", [a, b]⟩ = .skip)

/-- R49, R55: each recognized mnemonic with operands that resolve decodes to its record. -/
def Obligations.ResolvedTextDecodes : Prop :=
  ∀ a b c name rd rs rt imm,
    resolveRegister a = some rd → resolveRegister b = some rs →
    (resolveImmediate c = some imm →
      decodeText ⟨ascii "li", [a, c]⟩ = .li rd imm ∧
      decodeText ⟨ascii "addi", [a, b, c]⟩ = .addi rd rs imm ∧
      decodeText ⟨ascii "ori", [a, b, c]⟩ = .ori rd rs imm ∧
      decodeText ⟨ascii "sll", [a, b, c]⟩ = .sll rd rs imm ∧
      decodeText ⟨ascii "srl", [a, b, c]⟩ = .srl rd rs imm) ∧
    (resolveRegister c = some rt →
      decodeText ⟨ascii "add", [a, b, c]⟩ = .add rd rs rt ∧
      decodeText ⟨ascii "sub", [a, b, c]⟩ = .sub rd rs rt ∧
      decodeText ⟨ascii "mul", [a, b, c]⟩ = .mul rd rs rt ∧
      decodeText ⟨ascii "and", [a, b, c]⟩ = .and rd rs rt ∧
      decodeText ⟨ascii "xor", [a, b, c]⟩ = .xor rd rs rt) ∧
    decodeText ⟨ascii "DUMP_PROCESSOR_STATE", []⟩ = .dump ∧
    decodeText ⟨ascii "SNAPSHOT", [name]⟩ = .snapshot (.file name)

/-- R55, R57: an instruction that does not decode to the skip has one of the 13 mnemonics, the arity of R49 and
operands that resolve; every other instruction record is a skip. -/
def Obligations.MalformedTextSkips : Prop :=
  ∀ t : TextInstr, decodeText t ≠ .skip →
    (t.mnemonic = ascii "li" ∧
      ∃ a c, t.operands = [a, c] ∧ (resolveRegister a).isSome ∧ (resolveImmediate c).isSome) ∨
    ((∃ mn ∈ ["add", "sub", "mul", "and", "xor"], t.mnemonic = ascii mn) ∧
      ∃ a b c, t.operands = [a, b, c] ∧ (resolveRegister a).isSome ∧ (resolveRegister b).isSome ∧
        (resolveRegister c).isSome) ∨
    ((∃ mn ∈ ["addi", "ori", "sll", "srl"], t.mnemonic = ascii mn) ∧
      ∃ a b c, t.operands = [a, b, c] ∧ (resolveRegister a).isSome ∧ (resolveRegister b).isSome ∧
        (resolveImmediate c).isSome) ∨
    (t.mnemonic = ascii "or" ∧
      ∃ a b c, t.operands = [a, b, c] ∧ (resolveRegister a).isSome ∧ (resolveRegister b).isSome ∧
        ((resolveRegister c).isSome ∨ (resolveImmediate c).isSome)) ∨
    (t.mnemonic = ascii "DUMP_PROCESSOR_STATE" ∧ t.operands = []) ∨
    (t.mnemonic = ascii "SNAPSHOT" ∧ ∃ name, t.operands = [name])

/-- R67, first sentence, an inference the spec marks as its own: the word an instruction assembles to decodes to what its text decodes to, up to the
replacement of a `SNAPSHOT` name by its tag. -/
def Obligations.AssembledWordDecodesAsText : Prop :=
  ∀ (names : List Token) (t : TextInstr), decodeWord (assemble names t) = (decodeText t).withTag names

/-- R67, second sentence, an inference the spec marks as its own: a program run at the text level and its assembled image run at the binary level pass through
the same states and events, up to names and tags. -/
def Obligations.AssembledProgramSimulates : Prop :=
  ∀ (ts : List TextInstr) (s t : State), s.imem = .text ts → step s = .next t →
    t.imem = .text ts ∧ step (s.assembled ts) = .next (t.assembled ts)

/-- R68: in a program of legal length every `SNAPSHOT` has a tag that stands for its name, so different names have
different tags. That a name outside the table has the tag one past its end is the model's choice (log entry 21). -/
def Obligations.TagsStandForNames : Prop :=
  ∀ (ts : List TextInstr) (t : TextInstr) (name : Token), ts.length ≤ Config.lenMax → t ∈ ts →
    snapshotFile t = some name →
    resolveName (nameTable ts) (.tag (tagOf (nameTable ts) name)) = some name

/-- R45, R47: what the loader makes of a line keeps the guarantees the core may assume. The set of white space is the
model's choice (log entry 11). -/
def Obligations.LoaderKeepsGuarantees : Prop :=
  ∀ (line : List Byte) (t : TextInstr), tokenizeLine line = some t → t.wellFormed = true

/-- R45: a line that is empty, all white space or only a comment is no instruction, and every other line is one. The set
of white space is the model's choice (log entry 11). -/
def Obligations.BlankLinesAreNoInstruction : Prop :=
  ∀ line : List Byte,
    (tokenizeLine line = none ↔ ∀ b ∈ line.takeWhile (fun b => b != 0x23#8), isSpace b = true)

/-! ## Results of the instructions

`WritesReg`, `EmitsEvent` and `SkipsOnly` also say which outcome the instruction has (R86 (g), R110 to R112). -/

/-- R80, with the frame and outcome of R86 and R130. That the outcome enters a sequence in the state is the model's
choice (log entry 6). -/
def Obligations.LiLoadsImmediate : Prop :=
  ∀ (rd : RegIdx) (imm : Word) (s : State), ∃ t, exec (.li rd imm) s = .next t ∧ WritesReg s t rd imm

/-- R81, R85: the wrapped sum of the signed readings, with the frame and outcome of R86 and R130. That the outcome
enters a sequence in the state is the model's choice (log entry 6). -/
def Obligations.AddWritesWrappedSum : Prop :=
  ∀ (rd rs rt : RegIdx) (s : State), ∃ t v, exec (.add rd rs rt) s = .next t ∧
    (v.toNat : Int) = ((s.readReg rs).toInt + (s.readReg rt).toInt) % 2 ^ 32 ∧ WritesReg s t rd v

/-- R82, R85: the wrapped difference of the signed readings, with the frame and outcome of R86 and R130. That the
outcome enters a sequence in the state is the model's choice (log entry 6). -/
def Obligations.SubWritesWrappedDifference : Prop :=
  ∀ (rd rs rt : RegIdx) (s : State), ∃ t v, exec (.sub rd rs rt) s = .next t ∧
    (v.toNat : Int) = ((s.readReg rs).toInt - (s.readReg rt).toInt) % 2 ^ 32 ∧ WritesReg s t rd v

/-- R83, R85: the wrapped sum with a full 32-bit immediate, with the frame and outcome of R86 and R130. That the
outcome enters a sequence in the state is the model's choice (log entry 6). -/
def Obligations.AddiWritesWrappedSum : Prop :=
  ∀ (rd rs : RegIdx) (imm : Word) (s : State), ∃ t v, exec (.addi rd rs imm) s = .next t ∧
    (v.toNat : Int) = ((s.readReg rs).toInt + imm.toInt) % 2 ^ 32 ∧ WritesReg s t rd v

/-- R84, R85: the low 32 bits of the product, with the frame and outcome of R86 and R130. That the outcome enters a
sequence in the state is the model's choice (log entry 6). -/
def Obligations.MulWritesLowProduct : Prop :=
  ∀ (rd rs rt : RegIdx) (s : State), ∃ t v, exec (.mul rd rs rt) s = .next t ∧
    (v.toNat : Int) = ((s.readReg rs).toInt * (s.readReg rt).toInt) % 2 ^ 32 ∧ WritesReg s t rd v

/-- R90, R95, with the frame and outcome of R86 and R130. That the outcome enters a sequence in the state is the
model's choice (log entry 6). -/
def Obligations.AndActsBitwise : Prop :=
  ∀ (rd rs rt : RegIdx) (s : State), ∃ t v, exec (.and rd rs rt) s = .next t ∧ WritesReg s t rd v ∧
    ∀ k < 32, v.getLsbD k = ((s.readReg rs).getLsbD k && (s.readReg rt).getLsbD k)

/-- R91, R95, with the frame and outcome of R86 and R130. That the outcome enters a sequence in the state is the
model's choice (log entry 6). -/
def Obligations.OrActsBitwise : Prop :=
  ∀ (rd rs rt : RegIdx) (s : State), ∃ t v, exec (.or rd rs rt) s = .next t ∧ WritesReg s t rd v ∧
    ∀ k < 32, v.getLsbD k = ((s.readReg rs).getLsbD k || (s.readReg rt).getLsbD k)

/-- R92, R95: the literal form of `or`, with the frame and outcome of R86 and R130. That the outcome enters a
sequence in the state is the model's choice (log entry 6). -/
def Obligations.OrlActsBitwise : Prop :=
  ∀ (rd rs : RegIdx) (imm : Word) (s : State), ∃ t v, exec (.orl rd rs imm) s = .next t ∧ WritesReg s t rd v ∧
    ∀ k < 32, v.getLsbD k = ((s.readReg rs).getLsbD k || imm.getLsbD k)

/-- R93, R95, with the frame and outcome of R86 and R130. That the outcome enters a sequence in the state is the
model's choice (log entry 6). -/
def Obligations.OriActsBitwise : Prop :=
  ∀ (rd rs : RegIdx) (imm : Word) (s : State), ∃ t v, exec (.ori rd rs imm) s = .next t ∧ WritesReg s t rd v ∧
    ∀ k < 32, v.getLsbD k = ((s.readReg rs).getLsbD k || imm.getLsbD k)

/-- R94, R95, with the frame and outcome of R86 and R130. That the outcome enters a sequence in the state is the
model's choice (log entry 6). -/
def Obligations.XorActsBitwise : Prop :=
  ∀ (rd rs rt : RegIdx) (s : State), ∃ t v, exec (.xor rd rs rt) s = .next t ∧ WritesReg s t rd v ∧
    ∀ k < 32, v.getLsbD k = ((s.readReg rs).getLsbD k ^^ (s.readReg rt).getLsbD k)

/-- R100, R102, with the frame and outcome of R86 and R130. That `mask5` counts the low five bits of an amount
outside 0 to 31 is the spec's decision D8 (R102, log entry 10). That the outcome enters a sequence in the state is
the model's choice (log entry 6). -/
def Obligations.SllMovesBitsUp : Prop :=
  ∀ (rd rs : RegIdx) (imm : Word) (s : State), ∃ t v, exec (.sll rd rs imm) s = .next t ∧ WritesReg s t rd v ∧
    v.toNat = ((s.readReg rs).toNat * 2 ^ (imm.toNat % 32)) % 2 ^ 32

/-- R101, R102, with the frame and outcome of R86 and R130. Zeros enter at bit 31, so for an amount of 1 or more the
result is non-negative. That `mask5` counts the low five bits of an amount outside 0 to 31 is the spec's decision D8
(R102, log entry 10). That the outcome enters a sequence in the state is the model's choice (log entry 6). -/
def Obligations.SrlMovesBitsDown : Prop :=
  ∀ (rd rs : RegIdx) (imm : Word) (s : State), ∃ t v, exec (.srl rd rs imm) s = .next t ∧ WritesReg s t rd v ∧
    v.toNat = (s.readReg rs).toNat / 2 ^ (imm.toNat % 32) ∧ (imm.toNat % 32 ≠ 0 → 0 ≤ v.toInt)

/-- R102: on an amount of 0 to 31 every policy takes the amount itself; outside, `mask5` takes the low five bits and
`skip` takes none. An inference the spec marks as its own ("derived", R102). -/
def Obligations.ShiftPoliciesAgreeInRange : Prop :=
  ∀ imm : Word,
    (∀ p, 0 ≤ imm.toInt → imm.toInt ≤ 31 → shiftAmount p imm = some imm.toInt.toNat) ∧
    (imm.toInt < 0 ∨ 31 < imm.toInt →
      shiftAmount .skip imm = none ∧ shiftAmount .mask5 imm = some (imm.toInt % 32).toNat)

/-- R110: one dump event with the 32 register values in index order, the outcome of R130, and no other change. That
the outcome enters a sequence in the state is the model's choice (log entry 6). -/
def Obligations.DumpEmitsAllRegisters : Prop :=
  ∀ s : State, ∃ t values, exec .dump s = .next t ∧ EmitsEvent s t (.dump values) ∧ values.length = 32 ∧
    ∀ r : RegIdx, values[r.toNat]? = some (s.readReg r)

/-- R111, R43: one checkpoint event with the name, the registers and `pc + 1`, the outcome of R130, and no other
change. R111 says that `pc + 1` cannot overflow; the clause about it speaks of every `pc` for which it does not (log
entry 15). Little-endian is the spec's decision D11 (log entry 10). That the outcome enters a sequence in the state
is the model's choice (log entry 6). -/
def Obligations.SnapshotEmitsRecord : Prop :=
  ∀ (name : SnapshotName) (s : State), ∃ t record,
    exec (.snapshot name) s = .next t ∧ EmitsEvent s t (.checkpoint name record) ∧ record.length = 132 ∧
    (∀ r : RegIdx, ∀ k < 4, record[4 * r.toNat + k]? = some ((s.readReg r).extractLsb' (8 * k) 8)) ∧
    (∀ savedPc : Word, savedPc.toNat = s.pc.toNat + 1 →
      ∀ k < 4, record[128 + k]? = some (savedPc.extractLsb' (8 * k) 8))

/-- R112, R130: nothing but the outcome SKIPPED. That the outcome enters a sequence in the state is the model's
choice (log entry 6). -/
def Obligations.SkipChangesNothing : Prop :=
  ∀ s : State, ∃ t, exec .skip s = .next t ∧ SkipsOnly s t

/-- R11: register 0 reads 0 in every state and after every restore, and an instruction whose destination is register
0 executes, is no skip, and changes no register. That the outcome enters a sequence in the state is the model's
choice (log entry 6). -/
def Obligations.ZeroPortDiscardsWrites : Prop :=
  (∀ s : State, s.readReg 0#5 = 0#32) ∧
  (∀ (s : State) (vm : VMState), (s.restore vm).readReg 0#5 = 0#32) ∧
  (∀ (i : Instr) (s : State), destReg i = some 0#5 → ∃ t, exec i s = .next t ∧
    (∀ r : RegIdx, t.readReg r = s.readReg r) ∧ t.events = s.events ∧
    t.outcomes = s.outcomes ++ [.executed] ∧ SameControl s t)

/-- From R13, R24, R86 and R130: what no instruction changes. Only the destination register is written, `pc`,
`steps` and the run inputs stay, the outcome is SKIPPED for the skip alone, and only `DUMP_PROCESSOR_STATE` and
`SNAPSHOT` emit, one event each. That the outcome enters a sequence in the state is the model's choice (log entry
6). -/
def Obligations.ExecuteFrame : Prop :=
  ∀ (i : Instr) (s : State), ∃ t, exec i s = .next t ∧ SameControl s t ∧
    (∀ r : RegIdx, destReg i ≠ some r → t.readReg r = s.readReg r) ∧
    t.outcomes = s.outcomes ++ [if i = .skip then .skipped else .executed] ∧
    ((i = .dump ∨ ∃ name, i = .snapshot name) → ∃ e, t.events = s.events ++ [e]) ∧
    (i ≠ .dump → (∀ name, i ≠ .snapshot name) → t.events = s.events)

/-- R70, a restatement the spec marks as derived: the execute phase of every instruction is what the datapath does under the control table. -/
def Obligations.ExecuteMatchesControlTable : Prop :=
  ∀ (i : Instr) (s : State), exec i s = .next (runControl .mask5 .little (controlOf i) s)

/-! ## The step -/

/-- R128 to R132, R138: where a step may be taken and the entry at `pc` decodes to `i`, the step is `exec` of `i`, then
the advance, then the halt check. -/
def Obligations.StepRunsDecodedEntry : Prop :=
  ∀ (s u : State) (e : StoreEntry), s.ports.rst = false → s.runState = .running →
    s.pc.toNat < s.imem.len.toNat → s.steps.toNat < s.quota.toNat → s.imem.entry s.pc.toNat = some e →
    exec (decodeEntry e) s = .next u → step s = .next u.advance.haltCheck

/-- R31, an inference the spec marks as its own: whenever a step may be taken the index `pc` is inside the store. -/
def Obligations.FetchStaysInStore : Prop :=
  ∀ s : State, s.canStep = true → s.pc.toNat < s.imem.size ∧ ∃ e, s.imem.entry s.pc.toNat = some e

/-- R151, an inference the spec marks as its own ("`step` is total on every RUNNING state and every instruction"): no
state and no instruction makes a step fault or refuse. That a step answers in READY and HALTED too is the model's
choice (log entry 5). -/
def Obligations.StepIsTotal : Prop :=
  ∀ s : State, ∃ t, step s = .next t

/-- R132: in RUNNING a step that may be taken adds exactly 1 to `pc` and to `steps`, whatever the instruction, and
neither overflows; where no step may be taken both stay. -/
def Obligations.StepAdvancesByOne : Prop :=
  ∀ s t : State, s.ports.rst = false → s.runState = .running → step s = .next t →
    (s.pc.toNat < s.imem.len.toNat ∧ s.steps.toNat < s.quota.toNat →
      t.pc.toNat = s.pc.toNat + 1 ∧ t.steps.toNat = s.steps.toNat + 1) ∧
    (s.imem.len.toNat ≤ s.pc.toNat ∨ s.quota.toNat ≤ s.steps.toNat → t.pc = s.pc ∧ t.steps = s.steps)

/-- R133: in RUNNING the core is HALTED after a step exactly when a bound is reached then, and where a bound is already
reached nothing else changes. -/
def Obligations.HaltsExactlyAtBounds : Prop :=
  ∀ s t : State, s.ports.rst = false → s.runState = .running → step s = .next t →
    (t.runState = .halted ↔ t.imem.len.toNat ≤ t.pc.toNat ∨ t.quota.toNat ≤ t.steps.toNat) ∧
    (t.runState = .running ↔ t.pc.toNat < t.imem.len.toNat ∧ t.steps.toNat < t.quota.toNat) ∧
    (s.imem.len.toNat ≤ s.pc.toNat ∨ s.quota.toNat ≤ s.steps.toNat → t = { s with runState := .halted })

/-- R125, R173: without `rst` nothing changes in HALTED, and HALTED shows at least one halt flag under the invariant. That
a step is taken in HALTED at all is the model's choice (log entry 5). -/
def Obligations.HaltedIsTerminal : Prop :=
  ∀ s : State, s.runState = .halted →
    (s.ports.rst = false → step s = .next s) ∧
    (s.Inv → s.haltEndPort = some true ∨ s.haltQuotaPort = some true)

/-- R125: the only transitions of the run state without `rst` are READY to RUNNING, RUNNING to RUNNING or HALTED, and
staying in READY or HALTED. The steps that stay there are the model's choice (log entry 5). -/
def Obligations.RunStateTransitions : Prop :=
  ∀ s t : State, s.ports.rst = false → step s = .next t →
    (s.runState = .ready → t.runState = .running ∧ s.ports.start = true ∨ t.runState = .ready ∧ s.ports.start = false) ∧
    (s.runState = .running → t.runState = .running ∨ t.runState = .halted) ∧
    (s.runState = .halted → t.runState = .halted)

/-- R31, R41: no step writes the instruction store or the input ports. That the ports are part of the state is the
model's choice (log entry 3), and so is that `rst` leaves the store and the ports as they are (log entry 7). -/
def Obligations.StoreIsImmutable : Prop :=
  ∀ s t : State, step s = .next t → t.imem = s.imem ∧ t.ports = s.ports

/-- R24: without `rst` a step appends at most one event and one outcome and removes none. The sequence
of outcomes is the model's own field (log entry 6). -/
def Obligations.EventsOnlyGrow : Prop :=
  ∀ s t : State, s.ports.rst = false → step s = .next t →
    (∃ es, t.events = s.events ++ es ∧ es.length ≤ 1) ∧
    (∃ os, t.outcomes = s.outcomes ++ os ∧ os.length ≤ 1)

/-- R24: nothing reads the output back. Two states that differ only in what has been output take steps to states that
differ only in that, and the two steps emit the same events. The sequence of outcomes is the model's own
field (log entry 6). -/
def Obligations.OutputIsNeverRead : Prop :=
  ∀ s s' t t' : State, SameButOutput s s' → step s = .next t → step s' = .next t' →
    SameButOutput t t' ∧ (s.ports.rst = false → emittedEvents s t = emittedEvents s' t')

/-! ## Reset, restore, start -/

/-- R27: the reset values the spec gives, two of them (`steps` and the run state) by an inference it marks as its own. -/
def Obligations.ResetValues : Prop :=
  (∀ r : RegIdx, State.reset.readReg r = 0#32) ∧ State.reset.pc = 0#32 ∧ State.reset.steps = 0#Config.quotaw ∧
    State.reset.runState = .ready ∧ State.reset.events = []

/-- R170: `rst` puts every piece of state at its reset value, in every run state. That `rst` is a level a step reads
(log entry 3) and that it wins over a start or a restore asserted with it (log entry 4) are the model's choices. -/
def Obligations.ResetFromEveryState : Prop :=
  ∀ s : State, s.ports.rst = true → ∃ t, step s = .next t ∧
    (∀ r : RegIdx, t.readReg r = 0#32) ∧ t.pc = 0#32 ∧ t.steps = 0#Config.quotaw ∧ t.runState = .ready ∧ t.events = []

/-- R126: start samples the quota, clears `steps` (an inference the spec marks as its own), enters RUNNING and changes
nothing else. That the input is a level a step reads is the model's choice (log entry 3). -/
def Obligations.StartBeginsRun : Prop :=
  ∀ s : State, s.ports.rst = false → s.runState = .ready → s.ports.restoreValid = false → s.ports.start = true →
    step s = .next { s with quota := s.ports.cfgQuota, steps := 0#Config.quotaw, runState := .running }

/-- R136: a restore in READY loads `x[1]` to `x[31]` and `pc` from the port, ignores slot 0, and changes nothing else.
That the input is a level a step reads is the model's choice (log entry 3). -/
def Obligations.RestoreLoadsState : Prop :=
  ∀ s : State, s.ports.rst = false → s.runState = .ready → s.ports.restoreValid = true → s.ports.start = false →
    ∃ t, step s = .next t ∧
      (∀ r : RegIdx, t.readReg r = if r = 0#5 then 0#32 else s.ports.restoreRegs.get ⟨r.toNat, r.isLt⟩) ∧
      t.pc = s.ports.restorePc ∧ t.steps = s.steps ∧ t.runState = .ready ∧ t.quota = s.quota ∧
      t.events = s.events ∧ t.outcomes = s.outcomes ∧ t.imem = s.imem ∧ t.ports = s.ports

/-- From R136 and R173: outside READY, restore and start are ignored: no step without `rst` depends on them. -/
def Obligations.RestoreAndStartOnlyInReady : Prop :=
  ∀ (s t : State) (other : InputPorts), s.ports.rst = false → other.rst = false → s.runState ≠ .ready →
    step s = .next t → step { s with ports := other } = .next { t with ports := other }

/-! ## Invariant -/

/-- The reset state meets the invariant. Its store is empty by the model's choice (log entry 7). -/
def Obligations.ResetMeetsInvariant : Prop := State.reset.Inv

/-- Every step keeps the invariant, from every state that meets it. The clause on outcomes is about the model's own
field (log entry 6). -/
def Obligations.StepKeepsInvariant : Prop :=
  ∀ s t : State, s.Inv → step s = .next t → t.Inv

/-! ## Whole runs -/

/-- R134, an inference the spec marks as its own: from every state that has just entered RUNNING, the run takes
`n_steps = min(quota, max(0, LEN - p0))` steps and halts with `pc = p0 + n_steps` and `steps = n_steps`, one outcome
per step. The model takes `n_steps + 1` steps: for `n_steps` = 0 the one is the step that finds the bound reached,
else it is an idle step in HALTED, the model's choice (log entry 5). The sequence of outcomes is the model's own
field (log entry 6). -/
def Obligations.QuotaBoundsEveryRun : Prop :=
  ∀ s : State, s.ports.rst = false → s.runState = .running → s.steps = 0#Config.quotaw →
    ∃ t, stepMany (min s.quota.toNat (s.imem.len.toNat - s.pc.toNat) + 1) s = .next t ∧ t.runState = .halted ∧
      t.pc.toNat = s.pc.toNat + min s.quota.toNat (s.imem.len.toNat - s.pc.toNat) ∧
      t.steps.toNat = min s.quota.toNat (s.imem.len.toNat - s.pc.toNat) ∧
      t.outcomes.length = s.outcomes.length + min s.quota.toNat (s.imem.len.toNat - s.pc.toNat)

/-- R138, an inference the spec marks as its own ("`run` always terminates"): `run` of every configuration ends in
HALTED, with the counts of R134 from the entry point of R171, and with the invariant where the store is legal. That
set-up is one step with restore and start asserted together (log entry 4), and that a run of one instruction or more
ends with an idle step in HALTED (log entry 5), are the model's choices. -/
def Obligations.RunOfEveryConfigurationHalts : Prop :=
  ∀ (m : IMem) (initial : Option VMState) (quota : Count),
    ∃ t, run m initial quota = .next t ∧ t.runState = .halted ∧ t.imem = m ∧ t.quota = quota ∧
      t.pc.toNat = (entryPoint initial).toNat + runLength m quota (entryPoint initial) ∧
      t.steps.toNat = runLength m quota (entryPoint initial) ∧ (Memory.wf m = true → t.Inv)

/-! ## Snapshots and the environment -/

/-- R44: decoding the record of a state gives back its register file and `pc`, under either byte order. -/
def Obligations.RecordRoundTrip : Prop :=
  ∀ (e : SnapEndian) (s : State), decodeRecord e (encodeRecord e s.regValues s.pc) = some s.vmState

/-- R111, R136: a core restored from the record of a `SNAPSHOT` has the registers of the snapshotted core and the index
of the instruction after the `SNAPSHOT`. -/
def Obligations.SnapshotThenRestoreResumes : Prop :=
  ∀ (e : SnapEndian) (s u : State) (vm : VMState), decodeRecord e (s.snapshotRecord e) = some vm →
    (∀ r : RegIdx, (u.restore vm).readReg r = s.readReg r) ∧
      (s.pc.toNat + 1 < 2 ^ 32 → (u.restore vm).pc.toNat = s.pc.toNat + 1)

/-- R161 under both policies of R5: what becomes of an absent file, a record of 132 bytes and a file of another size,
and what is reported. The policy is the spec's decision D13. -/
def Obligations.SnapshotFileLoading : Prop :=
  ∀ (p : CorruptSnapshotPolicy) (e : SnapEndian),
    loadSnapshotFile p e none = (none, [.snapshotAbsent]) ∧
    (∀ bytes : List Byte, bytes.length = 132 →
      ∃ vm, decodeRecord e bytes = some vm ∧ loadSnapshotFile p e (some bytes) = (some vm, [])) ∧
    (∀ bytes : List Byte, bytes.length ≠ 132 →
      loadSnapshotFile .reject e (some bytes) = (none, [.snapshotCorruptSize]) ∧
      ∃ record vm, record.length = 132 ∧ (∀ k < 132, record[k]? = some (bytes.getD k 0#8)) ∧
        decodeRecord e record = some vm ∧
        loadSnapshotFile .partialLoad e (some bytes) = (some vm, [.snapshotCorruptSize]))

/-- R161 on a whole request: a VM whose configuration lacks the program or the quota is not started and has one report;
every other VM runs from its snapshot, or from reset where the snapshot could not be loaded, and is reported on for the
snapshot and then for each event whose save failed. That nothing but `loadError` is reported on a VM that is not started
is the model's choice (log entry 23); so is the file system as a list of names that cannot be written (log entry 16). -/
def Obligations.RequestReports : Prop :=
  ∀ r : RunRequest,
    (r.source = none ∨ r.quota = none →
      runRequest r = (.next State.reset, [.loadError]) ∧ r.prepare = (State.reset, [.loadError])) ∧
    (∀ m quota, r.source = some m → r.quota = some quota → ∃ t,
      run m r.initial.1 quota = .next t ∧ r.prepare = (setUp m r.initial.1 quota, r.initial.2) ∧
      runRequest r = (.next t, r.initial.2 ++ t.events.flatMap (saveReport r.names r.unwritable)) ∧
      (∀ name record, (.checkpoint name record : Event) ∈ t.events →
        (resolveName r.names name = none ∨ ∃ file ∈ r.unwritable, resolveName r.names name = some file) →
        EnvReport.snapshotSaveFailed ∈ (runRequest r).2))

/-- R20, R26, R133: the status outputs: the codes of the run state and the outcome; the index that a step fetches,
which is always below `LEN` (R31); and the halt flags in HALTED. That `imem_addr` outside the fetch and the flags
outside HALTED have no value is the model's choice (log entry 13). -/
def Obligations.StatusOutputs : Prop :=
  RunState.code .ready = 0#2 ∧ RunState.code .running = 1#2 ∧ RunState.code .halted = 2#2 ∧
    StepOutcome.code .executed = 1#1 ∧ StepOutcome.code .skipped = 0#1 ∧
    (∀ s : State, s.pcOut = s.pc ∧ s.stepsOut = s.steps) ∧
    (∀ s : State, s.runState = .running → s.ports.rst = false → s.canStep = true → s.imemAddr = some s.pc) ∧
    (∀ (s : State) (a : Word), s.imemAddr = some a → a = s.pc ∧ a.toNat < s.imem.len.toNat) ∧
    (∀ s : State, s.runState = .halted →
      s.haltEndPort = some (decide (s.imem.len.toNat ≤ s.pc.toNat)) ∧
      s.haltQuotaPort = some (decide (s.quota.toNat ≤ s.steps.toNat)))
end

