-- ==== Sys2Proof/Laws/Encode.lean ====
section
/-! SUPPORT. The fields of a word, and what a word must hold to match a row of the opcode map
(spec/30_encoding.md R60 to R63). -/

namespace Sys2Proof

/-- The word with all eight pieces of R60 given: the opcode, and for each register byte its three high bits and its
index. -/
def wideWord (op : Byte) (hd : BitVec 3) (rd : RegIdx) (hs : BitVec 3) (rs : RegIdx) (ht : BitVec 3) (rt : RegIdx)
    (imm : Word) : InstrWord :=
  op ++ hd ++ rd ++ hs ++ rs ++ ht ++ rt ++ imm

/-- With `IWLEN` = 64 the layout of R60 is the whole word. -/
@[simp] theorem layoutBits_eq (w : InstrWord) : layoutBits w = w := BitVec.setWidth_eq w

@[simp] theorem layoutWord_eq (bits : BitVec 64) : layoutWord bits = bits := BitVec.setWidth_eq bits

/-- With `IWLEN` = 64 a row admits the words of R62. -/
theorem OpcodeRow.admits_eq (r : OpcodeRow) (w : InstrWord) : r.admits w = (w &&& r.mask == r.matchBits) := by
  simp [OpcodeRow.admits]

theorem packWord_eq_wide (op : Byte) (rd rs rt : RegIdx) (imm : Word) :
    packWord op rd rs rt imm = wideWord op 0#3 rd 0#3 rs 0#3 rt imm := layoutWord_eq _

/-- Every word is made of its pieces (R60). -/
theorem wideWord_surj (w : InstrWord) :
    w = wideWord (w.extractLsb' 56 8) (w.extractLsb' 53 3) (fieldRd w) (w.extractLsb' 45 3) (fieldRs w)
      (w.extractLsb' 37 3) (fieldRt w) (fieldImm w) := by
  apply BitVec.eq_of_getElem_eq
  intro i hi
  simp only [wideWord, fieldRd, fieldRs, fieldRt, fieldImm]
  grind

section
variable (op : Byte) (hd : BitVec 3) (rd : RegIdx) (hs : BitVec 3) (rs : RegIdx) (ht : BitVec 3) (rt : RegIdx)
  (imm : Word)

@[simp] theorem fieldRd_wide : fieldRd (wideWord op hd rd hs rs ht rt imm) = rd := by
  apply BitVec.eq_of_getElem_eq
  intro i hi
  simp only [wideWord, fieldRd, BitVec.getElem_extractLsb', BitVec.getLsbD_append]
  grind

@[simp] theorem fieldRs_wide : fieldRs (wideWord op hd rd hs rs ht rt imm) = rs := by
  apply BitVec.eq_of_getElem_eq
  intro i hi
  simp only [wideWord, fieldRs, BitVec.getElem_extractLsb', BitVec.getLsbD_append]
  grind

@[simp] theorem fieldRt_wide : fieldRt (wideWord op hd rd hs rs ht rt imm) = rt := by
  apply BitVec.eq_of_getElem_eq
  intro i hi
  simp only [wideWord, fieldRt, BitVec.getElem_extractLsb', BitVec.getLsbD_append]
  grind

@[simp] theorem fieldImm_wide : fieldImm (wideWord op hd rd hs rs ht rt imm) = imm := by
  apply BitVec.eq_of_getElem_eq
  intro i hi
  simp only [wideWord, fieldImm, BitVec.getElem_extractLsb', BitVec.getLsbD_append]
  grind

/-- The opcode byte of a word, bits 63:56 (R60). -/
theorem opByte_wide : (wideWord op hd rd hs rs ht rt imm).extractLsb' 56 8 = op := by
  apply BitVec.eq_of_getElem_eq
  intro i hi
  simp only [wideWord, BitVec.getElem_extractLsb', BitVec.getLsbD_append]
  grind
end

theorem append_eq_iff {m n : Nat} (a a' : BitVec m) (b b' : BitVec n) : a ++ b = a' ++ b' ↔ a = a' ∧ b = b' := by
  constructor
  · intro h
    constructor
    · have := congrArg (fun x => x.extractLsb' n m) h
      simpa [BitVec.extractLsb'_append_eq_left] using this
    · have := congrArg (fun x => x.extractLsb' 0 n) h
      simpa [BitVec.extractLsb'_append_eq_right] using this
  · rintro ⟨rfl, rfl⟩
    rfl

theorem wideWord_inj (op hd rd hs rs ht rt imm) (op' hd' rd' hs' rs' ht' rt' imm') :
    wideWord op hd rd hs rs ht rt imm = wideWord op' hd' rd' hs' rs' ht' rt' imm' ↔
      op = op' ∧ hd = hd' ∧ rd = rd' ∧ hs = hs' ∧ rs = rs' ∧ ht = ht' ∧ rt = rt' ∧ imm = imm' := by
  constructor
  · intro h
    obtain ⟨h, h8⟩ := (append_eq_iff _ _ _ _).mp h
    obtain ⟨h, h7⟩ := (append_eq_iff _ _ _ _).mp h
    obtain ⟨h, h6⟩ := (append_eq_iff _ _ _ _).mp h
    obtain ⟨h, h5⟩ := (append_eq_iff _ _ _ _).mp h
    obtain ⟨h, h4⟩ := (append_eq_iff _ _ _ _).mp h
    obtain ⟨h, h3⟩ := (append_eq_iff _ _ _ _).mp h
    obtain ⟨h1, h2⟩ := (append_eq_iff _ _ _ _).mp h
    exact ⟨h1, h2, h3, h4, h5, h6, h7, h8⟩
  · rintro ⟨rfl, rfl, rfl, rfl, rfl, rfl, rfl, rfl⟩
    rfl

theorem append_and {m n : Nat} (a a' : BitVec m) (b b' : BitVec n) :
    (a ++ b) &&& (a' ++ b') = (a &&& a') ++ (b &&& b') := BitVec.and_append

theorem wideWord_and (op hd rd hs rs ht rt imm) (op' hd' rd' hs' rs' ht' rt' imm') :
    wideWord op hd rd hs rs ht rt imm &&& wideWord op' hd' rd' hs' rs' ht' rt' imm' =
      wideWord (op &&& op') (hd &&& hd') (rd &&& rd') (hs &&& hs') (rs &&& rs') (ht &&& ht') (rt &&& rt')
        (imm &&& imm') := by
  refine (append_and _ _ _ _).trans ?_
  rw [append_and, append_and, append_and, append_and, append_and, append_and]
  rfl

/-- A masked word equals a matched word exactly where every masked piece does. -/
theorem wide_and_eq_iff (op hd rd hs rs ht rt imm) (op' hd' rd' hs' rs' ht' rt' imm')
    (op'' hd'' rd'' hs'' rs'' ht'' rt'' imm'') :
    wideWord op hd rd hs rs ht rt imm &&& wideWord op' hd' rd' hs' rs' ht' rt' imm' =
        wideWord op'' hd'' rd'' hs'' rs'' ht'' rt'' imm'' ↔
      op &&& op' = op'' ∧ hd &&& hd' = hd'' ∧ rd &&& rd' = rd'' ∧ hs &&& hs' = hs'' ∧ rs &&& rs' = rs'' ∧
        ht &&& ht' = ht'' ∧ rt &&& rt' = rt'' ∧ imm &&& imm' = imm'' := by
  rw [wideWord_and, wideWord_inj]

theorem maskR_eq : 0xFFE0E0E0FFFFFFFF#64 =
    wideWord (BitVec.allOnes 8) (BitVec.allOnes 3) 0#5 (BitVec.allOnes 3) 0#5 (BitVec.allOnes 3) 0#5 (BitVec.allOnes 32) := by decide

theorem maskI_eq : 0xFFE0E0FF00000000#64 =
    wideWord (BitVec.allOnes 8) (BitVec.allOnes 3) 0#5 (BitVec.allOnes 3) 0#5 (BitVec.allOnes 3) (BitVec.allOnes 5) 0#32 := by decide

theorem maskL_eq : 0xFFE0FFFF00000000#64 =
    wideWord (BitVec.allOnes 8) (BitVec.allOnes 3) 0#5 (BitVec.allOnes 3) (BitVec.allOnes 5) (BitVec.allOnes 3) (BitVec.allOnes 5) 0#32 := by decide

theorem maskT_eq : 0xFFFFFFFF00000000#64 =
    wideWord (BitVec.allOnes 8) (BitVec.allOnes 3) (BitVec.allOnes 5) (BitVec.allOnes 3) (BitVec.allOnes 5) (BitVec.allOnes 3) (BitVec.allOnes 5) 0#32 := by decide

theorem maskZ_eq : 0xFFFFFFFFFFFFFFFF#64 =
    wideWord (BitVec.allOnes 8) (BitVec.allOnes 3) (BitVec.allOnes 5) (BitVec.allOnes 3) (BitVec.allOnes 5) (BitVec.allOnes 3) (BitVec.allOnes 5) (BitVec.allOnes 32) := by decide

/-- A matched word has an opcode byte and zeros. -/
theorem match_eq (k : Byte) : k ++ 0#56 = wideWord k 0#3 0#5 0#3 0#5 0#3 0#5 0#32 := by
  apply BitVec.eq_of_getElem_eq
  intro i hi
  simp [wideWord]
  grind

/-- Format R (R61): bits 55:53, 47:45, 39:37 and 31:0 are zero. -/
theorem admitsR (k op : Byte) (hd rd hs rs ht rt imm) :
    (wideWord op hd rd hs rs ht rt imm &&& 0xFFE0E0E0FFFFFFFF#64 == k ++ 0#56) =
      decide (op = k ∧ hd = 0#3 ∧ hs = 0#3 ∧ ht = 0#3 ∧ imm = 0#32) := by
  rw [maskR_eq, match_eq, Bool.eq_iff_iff]
  simp [wide_and_eq_iff, -BitVec.reduceAllOnes]

/-- Format I (R61): bits 55:53, 47:45 and 39:32 are zero. -/
theorem admitsI (k op : Byte) (hd rd hs rs ht rt imm) :
    (wideWord op hd rd hs rs ht rt imm &&& 0xFFE0E0FF00000000#64 == k ++ 0#56) =
      decide (op = k ∧ hd = 0#3 ∧ hs = 0#3 ∧ ht = 0#3 ∧ rt = 0#5) := by
  rw [maskI_eq, match_eq, Bool.eq_iff_iff]
  simp [wide_and_eq_iff, -BitVec.reduceAllOnes]

/-- Format L (R61): bits 55:53 and 47:32 are zero. -/
theorem admitsL (k op : Byte) (hd rd hs rs ht rt imm) :
    (wideWord op hd rd hs rs ht rt imm &&& 0xFFE0FFFF00000000#64 == k ++ 0#56) =
      decide (op = k ∧ hd = 0#3 ∧ hs = 0#3 ∧ rs = 0#5 ∧ ht = 0#3 ∧ rt = 0#5) := by
  rw [maskL_eq, match_eq, Bool.eq_iff_iff]
  simp [wide_and_eq_iff, -BitVec.reduceAllOnes]

/-- Format T (R61): bits 55:32 are zero. -/
theorem admitsT (k op : Byte) (hd rd hs rs ht rt imm) :
    (wideWord op hd rd hs rs ht rt imm &&& 0xFFFFFFFF00000000#64 == k ++ 0#56) =
      decide (op = k ∧ hd = 0#3 ∧ rd = 0#5 ∧ hs = 0#3 ∧ rs = 0#5 ∧ ht = 0#3 ∧ rt = 0#5) := by
  rw [maskT_eq, match_eq, Bool.eq_iff_iff]
  simp [wide_and_eq_iff, -BitVec.reduceAllOnes]

/-- Format Z (R61): bits 55:0 are zero. -/
theorem admitsZ (k op : Byte) (hd rd hs rs ht rt imm) :
    (wideWord op hd rd hs rs ht rt imm &&& 0xFFFFFFFFFFFFFFFF#64 == k ++ 0#56) =
      decide (op = k ∧ hd = 0#3 ∧ rd = 0#5 ∧ hs = 0#3 ∧ rs = 0#5 ∧ ht = 0#3 ∧ rt = 0#5 ∧ imm = 0#32) := by
  rw [maskZ_eq, match_eq, Bool.eq_iff_iff]
  simp [wide_and_eq_iff, -BitVec.reduceAllOnes]

/-- The first row of a list that admits a word gives the instruction. -/
def firstMatch (rows : List OpcodeRow) (w : InstrWord) : Instr :=
  match rows with
  | [] => .skip
  | r :: rest => if r.admits w = true then r.build w else firstMatch rest w

theorem find_eq_firstMatch (rows : List OpcodeRow) (w : InstrWord) :
    (match rows.find? (·.admits w) with
      | some r => r.build w
      | none => .skip) = firstMatch rows w := by
  induction rows with
  | nil => rfl
  | cons r rest ih =>
    cases h : r.admits w
    · simpa [firstMatch, h] using ih
    · simp [firstMatch, h]

theorem decodeWord_eq_firstMatch (w : InstrWord) : decodeWord w = firstMatch opcodeRows w :=
  find_eq_firstMatch opcodeRows w

/-- Everything `decode_word` can answer, by the pieces of the word (R61 to R64). -/
theorem decodeWord_wide (op : Byte) (hd : BitVec 3) (rd : RegIdx) (hs : BitVec 3) (rs : RegIdx) (ht : BitVec 3)
    (rt : RegIdx) (imm : Word) :
    decodeWord (wideWord op hd rd hs rs ht rt imm) =
      if op = 0x01#8 ∧ hd = 0#3 ∧ hs = 0#3 ∧ rs = 0#5 ∧ ht = 0#3 ∧ rt = 0#5 then .li rd imm
      else if op = 0x02#8 ∧ hd = 0#3 ∧ hs = 0#3 ∧ ht = 0#3 ∧ imm = 0#32 then .add rd rs rt
      else if op = 0x03#8 ∧ hd = 0#3 ∧ hs = 0#3 ∧ ht = 0#3 ∧ imm = 0#32 then .sub rd rs rt
      else if op = 0x04#8 ∧ hd = 0#3 ∧ hs = 0#3 ∧ ht = 0#3 ∧ rt = 0#5 then .addi rd rs imm
      else if op = 0x05#8 ∧ hd = 0#3 ∧ hs = 0#3 ∧ ht = 0#3 ∧ imm = 0#32 then .mul rd rs rt
      else if op = 0x06#8 ∧ hd = 0#3 ∧ hs = 0#3 ∧ ht = 0#3 ∧ imm = 0#32 then .and rd rs rt
      else if op = 0x07#8 ∧ hd = 0#3 ∧ hs = 0#3 ∧ ht = 0#3 ∧ imm = 0#32 then .or rd rs rt
      else if op = 0x08#8 ∧ hd = 0#3 ∧ hs = 0#3 ∧ ht = 0#3 ∧ rt = 0#5 then .ori rd rs imm
      else if op = 0x09#8 ∧ hd = 0#3 ∧ hs = 0#3 ∧ ht = 0#3 ∧ imm = 0#32 then .xor rd rs rt
      else if op = 0x0A#8 ∧ hd = 0#3 ∧ hs = 0#3 ∧ ht = 0#3 ∧ rt = 0#5 then .sll rd rs imm
      else if op = 0x0B#8 ∧ hd = 0#3 ∧ hs = 0#3 ∧ ht = 0#3 ∧ rt = 0#5 then .srl rd rs imm
      else if op = 0x0C#8 ∧ hd = 0#3 ∧ rd = 0#5 ∧ hs = 0#3 ∧ rs = 0#5 ∧ ht = 0#3 ∧ rt = 0#5 ∧ imm = 0#32 then
        .dump
      else if op = 0x0D#8 ∧ hd = 0#3 ∧ rd = 0#5 ∧ hs = 0#3 ∧ rs = 0#5 ∧ ht = 0#3 ∧ rt = 0#5 then
        .snapshot (.tag imm)
      else if op = 0x0E#8 ∧ hd = 0#3 ∧ hs = 0#3 ∧ ht = 0#3 ∧ rt = 0#5 then .orl rd rs imm
      else .skip := by
  rw [decodeWord_eq_firstMatch]
  simp only [opcodeRows, List.cons_append, List.nil_append, firstMatch, OpcodeRow.admits_eq,
    show 0x0100000000000000#64 = 0x01#8 ++ 0#56 from rfl, show 0x0200000000000000#64 = 0x02#8 ++ 0#56 from rfl,
    show 0x0300000000000000#64 = 0x03#8 ++ 0#56 from rfl, show 0x0400000000000000#64 = 0x04#8 ++ 0#56 from rfl,
    show 0x0500000000000000#64 = 0x05#8 ++ 0#56 from rfl, show 0x0600000000000000#64 = 0x06#8 ++ 0#56 from rfl,
    show 0x0700000000000000#64 = 0x07#8 ++ 0#56 from rfl, show 0x0800000000000000#64 = 0x08#8 ++ 0#56 from rfl,
    show 0x0900000000000000#64 = 0x09#8 ++ 0#56 from rfl, show 0x0A00000000000000#64 = 0x0A#8 ++ 0#56 from rfl,
    show 0x0B00000000000000#64 = 0x0B#8 ++ 0#56 from rfl, show 0x0C00000000000000#64 = 0x0C#8 ++ 0#56 from rfl,
    show 0x0D00000000000000#64 = 0x0D#8 ++ 0#56 from rfl, show 0x0E00000000000000#64 = 0x0E#8 ++ 0#56 from rfl,
    admitsR, admitsI, admitsL, admitsT, admitsZ, decide_eq_true_eq, fieldRd_wide, fieldRs_wide, fieldRt_wide,
    fieldImm_wide]

end Sys2Proof
end

