-- ==== Sys2Proof/Laws/Num.lean ====
section
/-! SUPPORT. What the ALU functions compute, in the bit vector operations the library knows, and the byte order of a
32-bit field. -/

namespace Sys2Proof.Machine

/-- Below another value of the same width, adding 1 does not wrap. -/
theorem toNat_succ_of_lt {n : Nat} {x y : BitVec n} (h : x.toNat < y.toNat) : (x + 1#n).toNat = x.toNat + 1 := by
  have hy := y.isLt
  rw [BitVec.toNat_add, BitVec.toNat_ofNat, Nat.add_mod_mod, Nat.mod_eq_of_lt (by omega)]

/-- Every value but the one with all bits set is below it. -/
theorem toNat_lt_allOnes {n : Nat} {x : BitVec n} (h : x ≠ BitVec.allOnes n) :
    x.toNat < (BitVec.allOnes n).toNat := by
  have hx := x.isLt
  have hne : x.toNat ≠ (BitVec.allOnes n).toNat := fun he => h (BitVec.eq_of_toNat_eq he)
  rw [BitVec.toNat_allOnes] at hne ⊢
  omega

theorem wrap32_toNat (n : Int) : ((wrap32 n).toNat : Int) = n % 4294967296 := by
  simp [wrap32, BitVec.toNat_ofInt]
  omega

theorem aluAdd_eq (a b : Word) : aluAdd a b = a + b := by
  simp [aluAdd, wrap32, BitVec.ofInt_add]

theorem aluSub_eq (a b : Word) : aluSub a b = a - b := by
  apply BitVec.eq_of_toInt_eq
  simp [aluSub, wrap32, BitVec.toInt_sub]

theorem aluMul_eq (a b : Word) : aluMul a b = a * b := by
  simp [aluMul, wrap32, BitVec.ofInt_mul]

theorem aluShl_eq (v : Word) (n : Nat) : aluShl v n = v <<< n := by
  apply BitVec.eq_of_toNat_eq
  simp only [aluShl, wrap32, BitVec.ofInt_natCast, BitVec.toNat_ofNat, BitVec.toNat_shiftLeft, Nat.shiftLeft_eq]

theorem aluShr_eq (v : Word) (n : Nat) : aluShr v n = v >>> n := by
  apply BitVec.eq_of_toNat_eq
  have h : v.toNat / 2 ^ n < 2 ^ 32 := Nat.lt_of_le_of_lt (Nat.div_le_self _ _) v.isLt
  simp only [aluShr, wrap32, BitVec.ofInt_natCast, BitVec.toNat_ofNat, BitVec.toNat_ushiftRight,
    Nat.shiftRight_eq_div_pow, Nat.mod_eq_of_lt h]

theorem shiftAmount_mask5 (imm : Word) : shiftAmount .mask5 imm = some (imm.toNat % 32) := by
  simp [shiftAmount]

/-- The two policies agree on every amount the source defines (R102). -/
theorem shiftAmount_inRange (p : ShamtPolicy) (imm : Word) (h : imm.toNat ≤ 31) :
    shiftAmount p imm = some imm.toNat := by
  have hi : imm.toInt = imm.toNat := BitVec.toInt_eq_toNat_of_lt (by omega)
  cases p with
  | mask5 => rw [shiftAmount_mask5, Nat.mod_eq_of_lt (by omega)]
  | skip =>
    have h0 : 0 ≤ imm.toInt ∧ imm.toInt ≤ 31 := by omega
    simp only [shiftAmount, if_pos h0]

@[simp] theorem wordBytes_length (e : SnapEndian) (v : Word) : (wordBytes e v).length = 4 := by
  cases e <;> rfl

theorem flatMap_wordBytes_length (e : SnapEndian) (values : List Word) :
    (values.flatMap (wordBytes e)).length = 4 * values.length := by
  induction values with
  | nil => rfl
  | cons v rest ih => simp [ih]; omega

theorem encodeRecord_length (e : SnapEndian) (values : List Word) (pc : Word) :
    (encodeRecord e values pc).length = 4 * values.length + 4 := by
  simp only [encodeRecord, List.length_append, flatMap_wordBytes_length, wordBytes_length]

theorem bytesWord_little (v : Word) :
    bytesWord .little (v.extractLsb' 0 8) (v.extractLsb' 8 8) (v.extractLsb' 16 8) (v.extractLsb' 24 8) = v := by
  apply BitVec.eq_of_getElem_eq
  intro i hi
  simp only [bytesWord]
  grind

theorem bytesWord_big (v : Word) :
    bytesWord .big (v.extractLsb' 24 8) (v.extractLsb' 16 8) (v.extractLsb' 8 8) (v.extractLsb' 0 8) = v := by
  apply BitVec.eq_of_getElem_eq
  intro i hi
  simp only [bytesWord]
  grind

/-- A field that heads a record is read back from it (R43). -/
theorem recordFields_wordBytes (e : SnapEndian) (v : Word) (rest : List Byte) :
    recordFields e (wordBytes e v ++ rest) = v :: recordFields e rest := by
  cases e with
  | little => exact congrArg (· :: recordFields _ rest) (bytesWord_little v)
  | big => exact congrArg (· :: recordFields _ rest) (bytesWord_big v)

/-- A record decodes exactly where it has 132 bytes (R43). -/
theorem decodeRecord_isSome (e : SnapEndian) (bytes : List Byte) :
    (decodeRecord e bytes).isSome = true ↔ bytes.length = Config.snapBytes := by
  simp only [decodeRecord]
  split <;> simp_all

end Sys2Proof.Machine
end

