-- ==== Sys2Proof/Laws/State.lean ====
section
/-! SUPPORT. One lemma per field per update of State, and the read and write laws of the register file. -/

namespace Sys2Proof.Machine

/-! ### `State.writeReg` -/

@[simp] theorem State.writeReg_regs (s : State) (r : RegIdx) (v : Word) :
    (s.writeReg r v).regs = RegFile.write s.regs r v := rfl

@[simp] theorem State.writeReg_pc (s : State) (r : RegIdx) (v : Word) :
    (s.writeReg r v).pc = s.pc := rfl

@[simp] theorem State.writeReg_steps (s : State) (r : RegIdx) (v : Word) :
    (s.writeReg r v).steps = s.steps := rfl

@[simp] theorem State.writeReg_runState (s : State) (r : RegIdx) (v : Word) :
    (s.writeReg r v).runState = s.runState := rfl

@[simp] theorem State.writeReg_quota (s : State) (r : RegIdx) (v : Word) :
    (s.writeReg r v).quota = s.quota := rfl

@[simp] theorem State.writeReg_events (s : State) (r : RegIdx) (v : Word) :
    (s.writeReg r v).events = s.events := rfl

@[simp] theorem State.writeReg_outcomes (s : State) (r : RegIdx) (v : Word) :
    (s.writeReg r v).outcomes = s.outcomes := rfl

@[simp] theorem State.writeReg_imem (s : State) (r : RegIdx) (v : Word) :
    (s.writeReg r v).imem = s.imem := rfl

@[simp] theorem State.writeReg_ports (s : State) (r : RegIdx) (v : Word) :
    (s.writeReg r v).ports = s.ports := rfl

/-! ### `State.withOutcome` -/

@[simp] theorem State.withOutcome_regs (s : State) (o : StepOutcome) :
    (s.withOutcome o).regs = s.regs := rfl

@[simp] theorem State.withOutcome_pc (s : State) (o : StepOutcome) :
    (s.withOutcome o).pc = s.pc := rfl

@[simp] theorem State.withOutcome_steps (s : State) (o : StepOutcome) :
    (s.withOutcome o).steps = s.steps := rfl

@[simp] theorem State.withOutcome_runState (s : State) (o : StepOutcome) :
    (s.withOutcome o).runState = s.runState := rfl

@[simp] theorem State.withOutcome_quota (s : State) (o : StepOutcome) :
    (s.withOutcome o).quota = s.quota := rfl

@[simp] theorem State.withOutcome_events (s : State) (o : StepOutcome) :
    (s.withOutcome o).events = s.events := rfl

@[simp] theorem State.withOutcome_outcomes (s : State) (o : StepOutcome) :
    (s.withOutcome o).outcomes = s.outcomes ++ [o] := rfl

@[simp] theorem State.withOutcome_imem (s : State) (o : StepOutcome) :
    (s.withOutcome o).imem = s.imem := rfl

@[simp] theorem State.withOutcome_ports (s : State) (o : StepOutcome) :
    (s.withOutcome o).ports = s.ports := rfl

/-! ### `State.emit` -/

@[simp] theorem State.emit_regs (s : State) (e : Event) :
    (s.emit e).regs = s.regs := rfl

@[simp] theorem State.emit_pc (s : State) (e : Event) :
    (s.emit e).pc = s.pc := rfl

@[simp] theorem State.emit_steps (s : State) (e : Event) :
    (s.emit e).steps = s.steps := rfl

@[simp] theorem State.emit_runState (s : State) (e : Event) :
    (s.emit e).runState = s.runState := rfl

@[simp] theorem State.emit_quota (s : State) (e : Event) :
    (s.emit e).quota = s.quota := rfl

@[simp] theorem State.emit_events (s : State) (e : Event) :
    (s.emit e).events = s.events ++ [e] := rfl

@[simp] theorem State.emit_outcomes (s : State) (e : Event) :
    (s.emit e).outcomes = s.outcomes := rfl

@[simp] theorem State.emit_imem (s : State) (e : Event) :
    (s.emit e).imem = s.imem := rfl

@[simp] theorem State.emit_ports (s : State) (e : Event) :
    (s.emit e).ports = s.ports := rfl

/-! ### `State.advance` -/

@[simp] theorem State.advance_regs (s : State) :
    (s.advance).regs = s.regs := rfl

@[simp] theorem State.advance_pc (s : State) :
    (s.advance).pc = s.pc + 1#32 := rfl

@[simp] theorem State.advance_steps (s : State) :
    (s.advance).steps = s.steps + 1#Config.quotaw := rfl

@[simp] theorem State.advance_runState (s : State) :
    (s.advance).runState = s.runState := rfl

@[simp] theorem State.advance_quota (s : State) :
    (s.advance).quota = s.quota := rfl

@[simp] theorem State.advance_events (s : State) :
    (s.advance).events = s.events := rfl

@[simp] theorem State.advance_outcomes (s : State) :
    (s.advance).outcomes = s.outcomes := rfl

@[simp] theorem State.advance_imem (s : State) :
    (s.advance).imem = s.imem := rfl

@[simp] theorem State.advance_ports (s : State) :
    (s.advance).ports = s.ports := rfl

/-! ### `State.haltCheck` -/

@[simp] theorem State.haltCheck_regs (s : State) :
    (s.haltCheck).regs = s.regs := rfl

@[simp] theorem State.haltCheck_pc (s : State) :
    (s.haltCheck).pc = s.pc := rfl

@[simp] theorem State.haltCheck_steps (s : State) :
    (s.haltCheck).steps = s.steps := rfl

@[simp] theorem State.haltCheck_runState (s : State) :
    (s.haltCheck).runState = if s.canStep then s.runState else .halted := rfl

@[simp] theorem State.haltCheck_quota (s : State) :
    (s.haltCheck).quota = s.quota := rfl

@[simp] theorem State.haltCheck_events (s : State) :
    (s.haltCheck).events = s.events := rfl

@[simp] theorem State.haltCheck_outcomes (s : State) :
    (s.haltCheck).outcomes = s.outcomes := rfl

@[simp] theorem State.haltCheck_imem (s : State) :
    (s.haltCheck).imem = s.imem := rfl

@[simp] theorem State.haltCheck_ports (s : State) :
    (s.haltCheck).ports = s.ports := rfl

/-! ### `State.halt` -/

@[simp] theorem State.halt_regs (s : State) :
    (s.halt).regs = s.regs := rfl

@[simp] theorem State.halt_pc (s : State) :
    (s.halt).pc = s.pc := rfl

@[simp] theorem State.halt_steps (s : State) :
    (s.halt).steps = s.steps := rfl

@[simp] theorem State.halt_runState (s : State) :
    (s.halt).runState = .halted := rfl

@[simp] theorem State.halt_quota (s : State) :
    (s.halt).quota = s.quota := rfl

@[simp] theorem State.halt_events (s : State) :
    (s.halt).events = s.events := rfl

@[simp] theorem State.halt_outcomes (s : State) :
    (s.halt).outcomes = s.outcomes := rfl

@[simp] theorem State.halt_imem (s : State) :
    (s.halt).imem = s.imem := rfl

@[simp] theorem State.halt_ports (s : State) :
    (s.halt).ports = s.ports := rfl

/-! ### `State.resetCore` -/

@[simp] theorem State.resetCore_regs (s : State) :
    (s.resetCore).regs = Vector.replicate 31 0#32 := rfl

@[simp] theorem State.resetCore_pc (s : State) :
    (s.resetCore).pc = 0#32 := rfl

@[simp] theorem State.resetCore_steps (s : State) :
    (s.resetCore).steps = 0#Config.quotaw := rfl

@[simp] theorem State.resetCore_runState (s : State) :
    (s.resetCore).runState = .ready := rfl

@[simp] theorem State.resetCore_quota (s : State) :
    (s.resetCore).quota = 0#Config.quotaw := rfl

@[simp] theorem State.resetCore_events (s : State) :
    (s.resetCore).events = [] := rfl

@[simp] theorem State.resetCore_outcomes (s : State) :
    (s.resetCore).outcomes = [] := rfl

@[simp] theorem State.resetCore_imem (s : State) :
    (s.resetCore).imem = s.imem := rfl

@[simp] theorem State.resetCore_ports (s : State) :
    (s.resetCore).ports = s.ports := rfl

/-! ### `State.restore` -/

@[simp] theorem State.restore_regs (s : State) (vm : VMState) :
    (s.restore vm).regs = Vector.ofFn fun i : Fin 31 => vm.regs.get i.succ := by simp only [State.restore]

@[simp] theorem State.restore_pc (s : State) (vm : VMState) :
    (s.restore vm).pc = vm.pc := by simp only [State.restore]

@[simp] theorem State.restore_steps (s : State) (vm : VMState) :
    (s.restore vm).steps = s.steps := by simp only [State.restore]

@[simp] theorem State.restore_runState (s : State) (vm : VMState) :
    (s.restore vm).runState = s.runState := by simp only [State.restore]

@[simp] theorem State.restore_quota (s : State) (vm : VMState) :
    (s.restore vm).quota = s.quota := by simp only [State.restore]

@[simp] theorem State.restore_events (s : State) (vm : VMState) :
    (s.restore vm).events = s.events := by simp only [State.restore]

@[simp] theorem State.restore_outcomes (s : State) (vm : VMState) :
    (s.restore vm).outcomes = s.outcomes := by simp only [State.restore]

@[simp] theorem State.restore_imem (s : State) (vm : VMState) :
    (s.restore vm).imem = s.imem := by simp only [State.restore]

@[simp] theorem State.restore_ports (s : State) (vm : VMState) :
    (s.restore vm).ports = s.ports := by simp only [State.restore]

/-! ### `State.startRun` -/

@[simp] theorem State.startRun_regs (s : State) :
    (s.startRun).regs = s.regs := rfl

@[simp] theorem State.startRun_pc (s : State) :
    (s.startRun).pc = s.pc := rfl

@[simp] theorem State.startRun_steps (s : State) :
    (s.startRun).steps = 0#Config.quotaw := rfl

@[simp] theorem State.startRun_runState (s : State) :
    (s.startRun).runState = .running := rfl

@[simp] theorem State.startRun_quota (s : State) :
    (s.startRun).quota = s.ports.cfgQuota := rfl

@[simp] theorem State.startRun_events (s : State) :
    (s.startRun).events = s.events := rfl

@[simp] theorem State.startRun_outcomes (s : State) :
    (s.startRun).outcomes = s.outcomes := rfl

@[simp] theorem State.startRun_imem (s : State) :
    (s.startRun).imem = s.imem := rfl

@[simp] theorem State.startRun_ports (s : State) :
    (s.startRun).ports = s.ports := rfl

/-! ### Registers -/

theorem RegFile.read_zero (rf : RegFile) : RegFile.read rf 0#5 = 0#32 := by simp [RegFile.read]

theorem regCell_inj {a b : RegIdx} (ha : a ≠ 0#5) (hb : b ≠ 0#5) (h : (regCell a).val = (regCell b).val) : a = b := by
  have ha' : a.toNat ≠ 0 := fun h => ha (BitVec.eq_of_toNat_eq (by simpa using h))
  have hb' : b.toNat ≠ 0 := fun h => hb (BitVec.eq_of_toNat_eq (by simpa using h))
  simp only [regCell] at h
  exact BitVec.eq_of_toNat_eq (by omega)

/-- The register file after a write (R11): the written register holds the value unless it is register 0. -/
theorem RegFile.read_write (rf : RegFile) (rd r : RegIdx) (v : Word) :
    RegFile.read (RegFile.write rf rd v) r = if r = rd ∧ r ≠ 0#5 then v else RegFile.read rf r := by
  by_cases hr : r = 0#5
  · simp [RegFile.read, hr]
  · by_cases hd : rd = 0#5
    · have : r ≠ rd := fun h => hr (h.trans hd)
      simp [RegFile.write, hd, hr]
    · by_cases h : r = rd
      · subst h
        simp [RegFile.read, RegFile.write, hr, Vector.get_eq_getElem]
      · have hne : (regCell rd).val ≠ (regCell r).val := fun hc => h (regCell_inj hr hd hc.symm)
        simp [RegFile.read, RegFile.write, hr, hd, h, Vector.get_eq_getElem, hne]

@[simp] theorem State.readReg_zero (s : State) : s.readReg 0#5 = 0#32 := RegFile.read_zero s.regs

@[simp] theorem State.readReg_withOutcome (s : State) (o : StepOutcome) (r : RegIdx) :
    (s.withOutcome o).readReg r = s.readReg r := rfl

@[simp] theorem State.readReg_emit (s : State) (e : Event) (r : RegIdx) : (s.emit e).readReg r = s.readReg r := rfl

@[simp] theorem State.readReg_advance (s : State) (r : RegIdx) : s.advance.readReg r = s.readReg r := rfl

@[simp] theorem State.readReg_haltCheck (s : State) (r : RegIdx) : s.haltCheck.readReg r = s.readReg r := rfl

@[simp] theorem State.readReg_halt (s : State) (r : RegIdx) : s.halt.readReg r = s.readReg r := rfl

@[simp] theorem State.readReg_startRun (s : State) (r : RegIdx) : s.startRun.readReg r = s.readReg r := rfl

/-- Reading a register after a write (R11). -/
theorem State.readReg_writeReg (s : State) (rd r : RegIdx) (v : Word) :
    (s.writeReg rd v).readReg r = if r = rd ∧ r ≠ 0#5 then v else s.readReg r :=
  RegFile.read_write s.regs rd r v

/-- Two register files that read alike are equal: register 0 has no cell. -/
theorem RegFile.ext_read {a b : RegFile} (h : ∀ r, RegFile.read a r = RegFile.read b r) : a = b := by
  apply Vector.ext
  intro k hk
  have hv : (BitVec.ofNat 5 (k + 1)).toNat = k + 1 := by simp; omega
  have hne : BitVec.ofNat 5 (k + 1) ≠ 0#5 := fun hc => by simp [hc] at hv
  have hr := h (BitVec.ofNat 5 (k + 1))
  simpa [RegFile.read, hne, Vector.get_eq_getElem, regCell, hv] using hr

/-- A restore writes slots 1 to 31 and leaves register 0 at zero (R136). -/
theorem State.readReg_restore (s : State) (vm : VMState) (r : RegIdx) :
    (s.restore vm).readReg r = if r = 0#5 then 0#32 else vm.regs.get ⟨r.toNat, r.isLt⟩ := by
  by_cases hr : r = 0#5
  · simp [hr]
  · have hn : r.toNat ≠ 0 := fun h => hr (BitVec.eq_of_toNat_eq (by simpa using h))
    have hs : r.toNat - 1 + 1 = r.toNat := by omega
    simp [State.readReg, RegFile.read, hr, Vector.get_eq_getElem, regCell, hs]

/-- Every register reads 0 after reset (R27, R170). -/
theorem State.readReg_resetCore (s : State) (r : RegIdx) : s.resetCore.readReg r = 0#32 := by
  simp [State.readReg, RegFile.read, Vector.get_eq_getElem]

@[simp] theorem State.regValues_length (s : State) : s.regValues.length = 32 := by
  simp [State.regValues, allRegs]

end Sys2Proof.Machine
end

