-- ==== Sys2Proof/Laws/Ops.lean ====
section
/-! SUPPORT. For each shared operation, once, everything it can do. -/

namespace Sys2Proof.Machine

theorem sameControl_refl (s : State) : SameControl s s := ⟨rfl, rfl, rfl, rfl, rfl, rfl⟩

/-- Everything `writeResult` can do (R86, R11). -/
theorem writeResult_spec (rd : RegIdx) (v : Word) (s : State) :
    ∃ t, writeResult rd v s = .next t ∧ WritesReg s t rd v :=
  ⟨_, rfl, fun r => State.readReg_writeReg s rd r v, rfl, rfl, rfl, rfl, rfl, rfl, rfl, rfl⟩

/-- Everything `emitEvent` can do (R110, R111). -/
theorem emitEvent_spec (e : Event) (s : State) : ∃ t, emitEvent e s = .next t ∧ EmitsEvent s t e :=
  ⟨_, rfl, fun _ => rfl, rfl, rfl, rfl, rfl, rfl, rfl, rfl, rfl⟩

/-- Everything `skipInstr` can do (R112). -/
theorem skipInstr_spec (s : State) : ∃ t, skipInstr s = .next t ∧ SkipsOnly s t :=
  ⟨_, rfl, fun _ => rfl, rfl, rfl, rfl, rfl, rfl, rfl, rfl, rfl⟩

/-- Everything `writeShift` can do (R102). -/
theorem writeShift_spec (rd : RegIdx) (v : Option Word) (s : State) :
    ∃ t, writeShift rd v s = .next t ∧
      ((∃ r, v = some r ∧ WritesReg s t rd r) ∨ (v = none ∧ SkipsOnly s t)) := by
  cases v with
  | none => obtain ⟨t, ht, hs⟩ := skipInstr_spec s; exact ⟨t, ht, .inr ⟨rfl, hs⟩⟩
  | some r => obtain ⟨t, ht, hs⟩ := writeResult_spec rd r s; exact ⟨t, ht, .inl ⟨r, rfl, hs⟩⟩

/-- `can_step` in numbers (R127). -/
theorem State.canStep_iff (s : State) :
    s.canStep = true ↔ s.pc.toNat < s.imem.len.toNat ∧ s.steps.toNat < s.quota.toNat := by
  simp [State.canStep, BitVec.lt_def]

/-- `can_step` is false exactly where a bound is reached (R133). -/
theorem State.canStep_false_iff (s : State) :
    s.canStep = false ↔ s.atEnd = true ∨ s.quotaReached = true := by
  simp [State.canStep, State.atEnd, State.quotaReached, BitVec.lt_def, BitVec.le_def]
  omega

/-- The advance phase in numbers (R16, R132): where a step may be taken, nothing wraps. -/
theorem State.advance_toNat (s : State) (h : s.canStep = true) :
    s.advance.pc.toNat = s.pc.toNat + 1 ∧ s.advance.steps.toNat = s.steps.toNat + 1 := by
  obtain ⟨h1, h2⟩ := (State.canStep_iff s).mp h
  exact ⟨toNat_succ_of_lt h1, toNat_succ_of_lt h2⟩

/-- What a step in READY does, by the two inputs (R126, R136). -/
theorem State.readyStep_cases (s : State) :
    (s.ports.restoreValid = false ∧ s.ports.start = false ∧ s.readyStep = s) ∨
      (s.ports.restoreValid = true ∧ s.ports.start = false ∧
        s.readyStep = s.restore s.ports.initialState) ∨
      (s.ports.restoreValid = false ∧ s.ports.start = true ∧ s.readyStep = s.startRun) ∨
      (s.ports.restoreValid = true ∧ s.ports.start = true ∧
        s.readyStep = (s.restore s.ports.initialState).startRun) := by
  cases h1 : s.ports.restoreValid <;> cases h2 : s.ports.start <;>
    simp [State.readyStep, State.restoreIfAsserted, State.startIfAsserted, h1, h2]

/-- What the halt check does to the run state (R133). -/
theorem State.haltCheck_cases (s : State) :
    (s.canStep = true ∧ s.haltCheck = s) ∨ (s.canStep = false ∧ s.haltCheck = s.halt) := by
  cases h : s.canStep
  · exact .inr ⟨rfl, by simp [State.haltCheck, State.halt, h]⟩
  · exact .inl ⟨rfl, by simp [State.haltCheck, h]⟩

end Sys2Proof.Machine
end

