-- ==== Sys2Proof/Laws/Memory.lean ====
section
/-! SUPPORT. The instruction store: a fetch below `LEN` is in the store, and every operation keeps the store's
well-formedness. -/

namespace Sys2Proof.Machine

theorem IMem.len_toNat (m : IMem) : m.len.toNat = min m.size Config.lenMax := by
  simp only [IMem.len, BitVec.toNat_ofNat]
  have : min m.size Config.lenMax ≤ 4294967295 := Nat.min_le_right _ _
  omega

/-- A store within `LEN_MAX` has as `LEN` its number of entries (R19, R172). -/
theorem IMem.len_of_wf (m : IMem) (h : Memory.wf m = true) : m.len.toNat = m.size := by
  have h' : m.size ≤ Config.lenMax := by simpa [Memory.wf] using h
  rw [IMem.len_toNat, Nat.min_eq_left h']

/-- A fetch below `LEN` finds an entry (R31, R128). -/
theorem IMem.entry_of_lt (m : IMem) (i : Nat) (h : i < m.len.toNat) : ∃ e, m.entry i = some e := by
  have hs : i < m.size := by rw [IMem.len_toNat] at h; omega
  cases m with
  | words ws => exact ⟨.word (ws[i]'hs), congrArg (Option.map StoreEntry.word) (List.getElem?_eq_getElem hs)⟩
  | text ts => exact ⟨.text (ts[i]'hs), congrArg (Option.map StoreEntry.text) (List.getElem?_eq_getElem hs)⟩

theorem placeAt_length (ws : List InstrWord) (i : Nat) (w : InstrWord) :
    (placeAt ws i w).length = max ws.length (i + 1) := by
  simp [placeAt]
  omega

theorem placeAt_get (ws : List InstrWord) (i : Nat) (w : InstrWord) : (placeAt ws i w)[i]? = some w := by
  have hl : (ws.take i ++ List.replicate (i - ws.length) skipWord).length = i := by
    simp
    omega
  simp [placeAt]
  grind

theorem IMem.placeWord_entry (m : IMem) (i : Nat) (w : InstrWord) :
    (m.placeWord i w).entry i = some (.word w) := by
  cases m <;> simp [IMem.placeWord, IMem.entry, placeAt_get]

theorem IMem.placeWord_size (m : IMem) (i : Nat) (w : InstrWord) : i < (m.placeWord i w).size := by
  cases m <;> simp [IMem.placeWord, IMem.size, placeAt_length]

/-- Placing a word below `LEN_MAX` keeps the store well formed. -/
theorem IMem.placeWord_wf (m : IMem) (i : Nat) (w : InstrWord) (hm : Memory.wf m = true) (hi : i < Config.lenMax) :
    Memory.wf (m.placeWord i w) = true := by
  cases m with
  | words ws =>
    have hw : ws.length ≤ Config.lenMax := of_decide_eq_true hm
    simp only [Memory.wf, IMem.placeWord, IMem.size, placeAt_length, decide_eq_true_eq]
    omega
  | text ts =>
    simp only [Memory.wf, IMem.placeWord, IMem.size, placeAt_length, decide_eq_true_eq, List.length_nil]
    omega

theorem State.reset_imem_wf : Memory.wf State.reset.imem = true := by decide

end Sys2Proof.Machine
end

