-- ==== Sys2Proof/Laws/PerInstr.lean ====
section
/-! SUPPORT. Facts about every instruction as syntax, one lemma per constructor. Family `EncodeAdmitted`: the word of
an instruction is one that some row of the opcode map admits, and that row reads the instruction back from it
(spec/30_encoding.md R62, R65). -/

namespace Sys2Proof.Laws

/-- The word of `i`, if `i` has one and is not the skip, is admitted by a row of the opcode map that builds `i`. -/
def EncodeAdmitted.Statement (i : Instr) : Prop :=
  ∀ w, encode i = some w → i ≠ .skip → ∃ r ∈ opcodeRows, r.admits w = true ∧ r.build w = i

/-- A row given by its place in the opcode map. -/
theorem rowAt_mem (k : Fin 14) : opcodeRows.get k ∈ opcodeRows := List.get_mem _ _

theorem EncodeAdmitted.li (rd : RegIdx) (imm : Word) : EncodeAdmitted.Statement (.li rd imm) := by
  rintro w hw -
  cases hw
  rw [packWord_eq_wide]
  refine ⟨_, rowAt_mem 0, (OpcodeRow.admits_eq _ _).trans ((admitsL 0x01#8 _ _ _ _ _ _ _ _).trans ?_), ?_⟩
  · simp
  · simp [opcodeRows]

theorem EncodeAdmitted.add (rd rs rt : RegIdx) : EncodeAdmitted.Statement (.add rd rs rt) := by
  rintro w hw -
  cases hw
  rw [packWord_eq_wide]
  refine ⟨_, rowAt_mem 1, (OpcodeRow.admits_eq _ _).trans ((admitsR 0x02#8 _ _ _ _ _ _ _ _).trans ?_), ?_⟩
  · simp
  · simp [opcodeRows]

theorem EncodeAdmitted.sub (rd rs rt : RegIdx) : EncodeAdmitted.Statement (.sub rd rs rt) := by
  rintro w hw -
  cases hw
  rw [packWord_eq_wide]
  refine ⟨_, rowAt_mem 2, (OpcodeRow.admits_eq _ _).trans ((admitsR 0x03#8 _ _ _ _ _ _ _ _).trans ?_), ?_⟩
  · simp
  · simp [opcodeRows]

theorem EncodeAdmitted.addi (rd rs : RegIdx) (imm : Word) : EncodeAdmitted.Statement (.addi rd rs imm) := by
  rintro w hw -
  cases hw
  rw [packWord_eq_wide]
  refine ⟨_, rowAt_mem 3, (OpcodeRow.admits_eq _ _).trans ((admitsI 0x04#8 _ _ _ _ _ _ _ _).trans ?_), ?_⟩
  · simp
  · simp [opcodeRows]

theorem EncodeAdmitted.mul (rd rs rt : RegIdx) : EncodeAdmitted.Statement (.mul rd rs rt) := by
  rintro w hw -
  cases hw
  rw [packWord_eq_wide]
  refine ⟨_, rowAt_mem 4, (OpcodeRow.admits_eq _ _).trans ((admitsR 0x05#8 _ _ _ _ _ _ _ _).trans ?_), ?_⟩
  · simp
  · simp [opcodeRows]

theorem EncodeAdmitted.and (rd rs rt : RegIdx) : EncodeAdmitted.Statement (.and rd rs rt) := by
  rintro w hw -
  cases hw
  rw [packWord_eq_wide]
  refine ⟨_, rowAt_mem 5, (OpcodeRow.admits_eq _ _).trans ((admitsR 0x06#8 _ _ _ _ _ _ _ _).trans ?_), ?_⟩
  · simp
  · simp [opcodeRows]

theorem EncodeAdmitted.or (rd rs rt : RegIdx) : EncodeAdmitted.Statement (.or rd rs rt) := by
  rintro w hw -
  cases hw
  rw [packWord_eq_wide]
  refine ⟨_, rowAt_mem 6, (OpcodeRow.admits_eq _ _).trans ((admitsR 0x07#8 _ _ _ _ _ _ _ _).trans ?_), ?_⟩
  · simp
  · simp [opcodeRows]

theorem EncodeAdmitted.ori (rd rs : RegIdx) (imm : Word) : EncodeAdmitted.Statement (.ori rd rs imm) := by
  rintro w hw -
  cases hw
  rw [packWord_eq_wide]
  refine ⟨_, rowAt_mem 7, (OpcodeRow.admits_eq _ _).trans ((admitsI 0x08#8 _ _ _ _ _ _ _ _).trans ?_), ?_⟩
  · simp
  · simp [opcodeRows]

theorem EncodeAdmitted.xor (rd rs rt : RegIdx) : EncodeAdmitted.Statement (.xor rd rs rt) := by
  rintro w hw -
  cases hw
  rw [packWord_eq_wide]
  refine ⟨_, rowAt_mem 8, (OpcodeRow.admits_eq _ _).trans ((admitsR 0x09#8 _ _ _ _ _ _ _ _).trans ?_), ?_⟩
  · simp
  · simp [opcodeRows]

theorem EncodeAdmitted.sll (rd rs : RegIdx) (imm : Word) : EncodeAdmitted.Statement (.sll rd rs imm) := by
  rintro w hw -
  cases hw
  rw [packWord_eq_wide]
  refine ⟨_, rowAt_mem 9, (OpcodeRow.admits_eq _ _).trans ((admitsI 0x0A#8 _ _ _ _ _ _ _ _).trans ?_), ?_⟩
  · simp
  · simp [opcodeRows]

theorem EncodeAdmitted.srl (rd rs : RegIdx) (imm : Word) : EncodeAdmitted.Statement (.srl rd rs imm) := by
  rintro w hw -
  cases hw
  rw [packWord_eq_wide]
  refine ⟨_, rowAt_mem 10, (OpcodeRow.admits_eq _ _).trans ((admitsI 0x0B#8 _ _ _ _ _ _ _ _).trans ?_), ?_⟩
  · simp
  · simp [opcodeRows]

theorem EncodeAdmitted.dump : EncodeAdmitted.Statement .dump := by
  rintro w hw -
  cases hw
  exact ⟨_, rowAt_mem 11, by decide, rfl⟩

theorem EncodeAdmitted.snapshot (name : SnapshotName) : EncodeAdmitted.Statement (.snapshot name) := by
  rintro w hw -
  cases name with
  | file f => cases hw
  | tag t =>
    cases hw
    rw [packWord_eq_wide]
    refine ⟨_, rowAt_mem 12, (OpcodeRow.admits_eq _ _).trans ((admitsT 0x0D#8 _ _ _ _ _ _ _ _).trans ?_), ?_⟩
    · simp
    · simp [opcodeRows]

theorem EncodeAdmitted.orl (rd rs : RegIdx) (imm : Word) : EncodeAdmitted.Statement (.orl rd rs imm) := by
  rintro w hw -
  cases hw
  rw [packWord_eq_wide]
  refine ⟨_, rowAt_mem 13, (OpcodeRow.admits_eq _ _).trans ((admitsI 0x0E#8 _ _ _ _ _ _ _ _).trans ?_), ?_⟩
  · simp
  · simp [opcodeRows]

theorem EncodeAdmitted.skip : EncodeAdmitted.Statement .skip := by
  intro w _ hne
  exact absurd rfl hne

end Sys2Proof.Laws
end

