-- ==== Sys2Proof/Laws/Step.lean ====
section
/-! SUPPORT. What one step can do, once; and that a placed word is what the next step runs. -/

namespace Sys2Proof.Machine

/-- Everything a step that answers a next state can have done (R126, R133, R138, R170, R173). -/
theorem step_cases {s t : State} (h : step s = .next t) :
    (s.ports.rst = true ∧ t = s.resetCore) ∨
      (s.ports.rst = false ∧ s.runState = .ready ∧ t = s.readyStep) ∨
      (s.ports.rst = false ∧ s.runState = .halted ∧ t = s) ∨
      (s.ports.rst = false ∧ s.runState = .running ∧ s.canStep = false ∧ t = s.halt) ∨
      (s.ports.rst = false ∧ s.runState = .running ∧ s.canStep = true ∧
        ∃ e u, s.imem.entry s.pc.toNat = some e ∧ exec (decodeEntry e) s = .next u ∧ t = u.advance.haltCheck) := by
  unfold step at h
  split at h
  · rename_i hr
    exact .inl ⟨hr, by cases h; rfl⟩
  · rename_i hr
    have hr' : s.ports.rst = false := by simpa using hr
    refine .inr ?_
    split at h
    · rename_i hs
      exact .inl ⟨hr', hs, by cases h; rfl⟩
    · rename_i hs
      refine .inr (.inr ?_)
      unfold runStep at h
      split at h
      · rename_i hc
        refine .inr ⟨hr', hs, hc, ?_⟩
        split at h
        · rename_i e he
          unfold runEntry at h
          split at h
          · rename_i u hu
            exact ⟨e, u, he, hu, by cases h; rfl⟩
          · cases h
          · cases h
        · cases h
      · rename_i hc
        exact .inl ⟨hr', hs, by simpa using hc, by cases h; rfl⟩
    · rename_i hs
      exact .inr (.inl ⟨hr', hs, by cases h; rfl⟩)

theorem runStep_of_canStep {s : State} {e : StoreEntry} (hc : s.canStep = true)
    (he : s.imem.entry s.pc.toNat = some e) : runStep s = runEntry e s := by
  simp [runStep, hc, he]

/-- The index and the counter of a state that is placed for a fetch are below their bounds. -/
theorem State.placeFetch_bounds (s : State) (w : InstrWord) :
    (s.placeFetch w).pc.toNat < 4294967295 ∧ (s.placeFetch w).steps.toNat < (s.placeFetch w).quota.toNat := by
  constructor
  · by_cases h : s.pc = 0xFFFFFFFF#32
    · simp [State.placeFetch, h]
    · simpa [State.placeFetch, h] using toNat_lt_allOnes (n := 32) h
  · have key : ∀ x : Count, x ≠ BitVec.allOnes Config.quotaw →
        x.toNat < (if x < s.quota then s.quota else x + 1#Config.quotaw).toNat := by
      intro x hx
      split
      · rename_i hl
        exact hl
      · rw [toNat_succ_of_lt (toNat_lt_allOnes hx)]
        omega
    show (if s.steps = BitVec.allOnes Config.quotaw then 0#Config.quotaw else s.steps).toNat < _
    apply key
    split
    · decide
    · assumption

/-- A placed word is what the next step fetches and runs, from every state (log entry 8). -/
theorem step_withFetchWord (s : State) (nbits w : Nat) :
    step (s.withFetchWord nbits w) = runEntry (.word (tableWord nbits w)) (s.withFetchWord nbits w) := by
  obtain ⟨hpc, hst⟩ := State.placeFetch_bounds s (tableWord nbits w)
  have he : (s.placeFetch (tableWord nbits w)).imem.entry (s.placeFetch (tableWord nbits w)).pc.toNat =
      some (.word (tableWord nbits w)) := IMem.placeWord_entry _ _ _
  have hz : (s.placeFetch (tableWord nbits w)).pc.toNat < (s.placeFetch (tableWord nbits w)).imem.size :=
    IMem.placeWord_size _ _ _
  have hc : (s.placeFetch (tableWord nbits w)).canStep = true := by
    rw [State.canStep_iff, IMem.len_toNat]
    exact ⟨Nat.lt_min.mpr ⟨hz, hpc⟩, hst⟩
  exact runStep_of_canStep hc he

end Sys2Proof.Machine
end

