-- ==== Sys2Proof/Tests/Slice0.lean ====
section
/-! SUPPORT. The model's own tests: the WellFormed smoke test, words and texts written out in spec/95_test_vectors.md and
spec/30_encoding.md, at most two steps per instruction, and for each statement with hypotheses a state that meets them. -/

namespace Sys2Proof.Tests

open Sys2Proof.Machine

/-! ## WellFormed: an ill-formed term for each check -/

theorem test_wf_refuses_untagged_name : Instr.wellFormed (.snapshot (.file (ascii "a"))) = false := by decide

theorem test_wf_accepts_tag : Instr.wellFormed (.snapshot (.tag 0#32)) = true := by decide

theorem test_wf_refuses_space_in_mnemonic : TextInstr.wellFormed ⟨ascii "li x", []⟩ = false := by decide

theorem test_wf_refuses_empty_operand : TextInstr.wellFormed ⟨ascii "li", [[]]⟩ = false := by decide

theorem test_wf_refuses_leading_space : TextInstr.wellFormed ⟨ascii "li", [ascii " $t0"]⟩ = false := by decide

theorem test_wf_refuses_trailing_space : TextInstr.wellFormed ⟨ascii "li", [ascii "$t0 "]⟩ = false := by decide

theorem test_wf_refuses_comma : TextInstr.wellFormed ⟨ascii "li", [ascii "$t0,1"]⟩ = false := by decide

theorem test_wf_accepts_text : TextInstr.wellFormed ⟨ascii "li", [ascii "$v0", ascii "10"]⟩ = true := by decide

theorem test_store_wf_reset : Memory.wf State.reset.imem = true := by decide

/-! ## Words of R69 and of the vectors 2.4, one per constructor -/

theorem test_word_li : decodeWord 0x010200000000000A#64 = .li 2#5 10#32 := by decide

theorem test_word_add : decodeWord 0x0202020300000000#64 = .add 2#5 2#5 3#5 := by decide

theorem test_word_sub : decodeWord 0x03141F0100000000#64 = .sub 20#5 31#5 1#5 := by decide

theorem test_word_addi : decodeWord 0x04080900FFFFFFF9#64 = .addi 8#5 9#5 0xFFFFFFF9#32 := by decide

theorem test_word_mul : decodeWord 0x0510111200000000#64 = .mul 16#5 17#5 18#5 := by decide

theorem test_word_and : decodeWord 0x0604050600000000#64 = .and 4#5 5#5 6#5 := by decide

theorem test_word_or : decodeWord 0x0708090A00000000#64 = .or 8#5 9#5 10#5 := by decide

theorem test_word_ori : decodeWord 0x08080900000000FF#64 = .ori 8#5 9#5 255#32 := by decide

theorem test_word_xor : decodeWord 0x091F1D1E00000000#64 = .xor 31#5 29#5 30#5 := by decide

theorem test_word_sll : decodeWord 0x0A08090000000021#64 = .sll 8#5 9#5 0x21#32 := by decide

theorem test_word_srl : decodeWord 0x0B1F1F00FFFFFFFF#64 = .srl 31#5 31#5 0xFFFFFFFF#32 := by decide

theorem test_word_dump : decodeWord 0x0C00000000000000#64 = .dump := by decide

theorem test_word_snapshot : decodeWord 0x0D000000FFFFFFFF#64 = .snapshot (.tag 0xFFFFFFFF#32) := by decide

theorem test_word_orl : decodeWord 0x0E1F1F00FFFFFFFF#64 = .orl 31#5 31#5 0xFFFFFFFF#32 := by decide

theorem test_word_skip : decodeWord 0x0000000000000000#64 = .skip := by decide

/-- The reserved words of 2.4, all of them skips. -/
theorem test_words_reserved :
    [0x0000000000000001#64, 0x0F00000000000000#64, 0x8200000000000000#64, 0xFF00000000000000#64,
      0x0220000000000000#64, 0x0202200300000000#64, 0x0202022300000000#64, 0x0202020300000001#64,
      0x0108010000000005#64, 0x0108000100000005#64, 0x0408090100000001#64, 0x0408092000000001#64,
      0x0C01000000000000#64, 0x0D01000000000000#64, 0x0D00010000000000#64, 0x0D00000100000000#64].all
      (fun w => decodeWord w == .skip) = true := by decide

theorem test_encode_R69 : encode (.xor 31#5 29#5 30#5) = some 0x091F1D1E00000000#64 := by decide

theorem test_table_word : decodeTableWord 64 0x0B08090000000001 = some (.srl 8#5 9#5 1#32) := by decide

/-! ## Texts of R59 and of the vectors 2.1 to 2.3 -/

theorem test_register_tokens :
    [ascii "$0", ascii "$zero", ascii "$t0", ascii "$ra", ascii "$0031", ascii "$32", ascii "$5x", ascii "$T0",
      ascii "t0", ascii "$"].map resolveRegister =
      [some 0#5, some 0#5, some 8#5, some 31#5, some 31#5, none, none, none, none, none] := by decide

theorem test_literal_tokens :
    [ascii "-1", ascii "+5", ascii "010", ascii "-2147483648", ascii "2147483647", ascii "2147483648",
      ascii "-2147483649", ascii "0x10", ascii "--1", ascii "+"].map resolveImmediate =
      [some 0xFFFFFFFF#32, some 5#32, some 10#32, some 0x80000000#32, some 0x7FFFFFFF#32, none, none, none, none,
        none] := by decide

theorem test_text_or_register :
    decodeText ⟨ascii "or", [ascii "$t0", ascii "$t1", ascii "$10"]⟩ = .or 8#5 9#5 10#5 := by decide

theorem test_text_or_literal :
    decodeText ⟨ascii "or", [ascii "$t0", ascii "$t1", ascii "10"]⟩ = .orl 8#5 9#5 10#32 := by decide

theorem test_text_case : decodeText ⟨ascii "ADD", [ascii "$t0", ascii "$t1", ascii "$t2"]⟩ = .skip := by decide

theorem test_text_div : decodeText ⟨ascii "div", [ascii "$t0", ascii "$t1", ascii "$t2"]⟩ = .skip := by decide

theorem test_text_snapshot :
    decodeText ⟨ascii "SNAPSHOT", [ascii "out.bin"]⟩ = .snapshot (.file (ascii "out.bin")) := by decide

theorem test_assemble_hex_literal :
    assemble [] ⟨ascii "addi", [ascii "$s7", ascii "$t1", ascii "0x10"]⟩ = 0x0000000000000000#64 := by decide

theorem test_tokenize_comment_line : tokenizeLine (ascii "# corner cases") = none := by decide

theorem test_tokenize_line :
    tokenizeLine (ascii "li $t1, 7 # seven") = some ⟨ascii "li", [ascii "$t1", ascii "7"]⟩ := by decide

/-! ## One step of each instruction (vectors 2.5 to 2.10) -/

/-- A RUNNING core with the given registers, a store of two entries and a quota of 10. -/
def core (xs : List (RegIdx × Word)) : State :=
  xs.foldl (fun s x => s.writeReg x.1 x.2)
    { State.reset with runState := .running, quota := 10#32, imem := .words [skipWord, skipWord] }

/-- A register after an outcome. -/
def regOf (o : Host.Outcome State Fault Refusal) (r : RegIdx) : Option Word :=
  match o with
  | .next t => some (t.readReg r)
  | .fault _ => none
  | .refused _ => none

/-- The events and outcomes after an outcome. -/
def outputOf (o : Host.Outcome State Fault Refusal) : Option (List Event × List StepOutcome) :=
  match o with
  | .next t => some (t.events, t.outcomes)
  | .fault _ => none
  | .refused _ => none

theorem test_li : regOf (exec (.li 8#5 0x80000000#32) (core [])) 8#5 = some 0x80000000#32 := by decide

theorem test_li_zero : outputOf (exec (.li 0#5 5#32) (core [])) = some ([], [.executed]) := by decide

theorem test_add_wraps :
    regOf (exec (.add 8#5 9#5 10#5) (core [(9#5, 0x7FFFFFFF#32), (10#5, 1#32)])) 8#5 = some 0x80000000#32 := by decide

theorem test_add_same_register : regOf (exec (.add 8#5 8#5 8#5) (core [(8#5, 5#32)])) 8#5 = some 10#32 := by decide

theorem test_sub_order :
    regOf (exec (.sub 8#5 9#5 10#5) (core [(9#5, 5#32), (10#5, 7#32)])) 8#5 = some 0xFFFFFFFE#32 := by decide

theorem test_addi_negative :
    regOf (exec (.addi 8#5 9#5 0xFFFFFFFF#32) (core [(9#5, 0x80000000#32)])) 8#5 = some 0x7FFFFFFF#32 := by decide

theorem test_mul_wraps :
    regOf (exec (.mul 8#5 9#5 10#5) (core [(9#5, 46341#32), (10#5, 46341#32)])) 8#5 = some 0x80001219#32 := by decide

theorem test_mul_signs :
    regOf (exec (.mul 8#5 9#5 10#5) (core [(9#5, 6#32), (10#5, 0xFFFFFFF9#32)])) 8#5 = some 0xFFFFFFD6#32 := by decide

theorem test_and :
    regOf (exec (.and 8#5 9#5 10#5) (core [(9#5, 0x12345678#32), (10#5, 0x0F0F0F0F#32)])) 8#5 =
      some 0x02040608#32 := by decide

theorem test_or :
    regOf (exec (.or 8#5 9#5 10#5) (core [(9#5, 0x12345678#32), (10#5, 0x0F0F0F0F#32)])) 8#5 =
      some 0x1F3F5F7F#32 := by decide

theorem test_orl : regOf (exec (.orl 8#5 9#5 255#32) (core [(9#5, 0x100#32)])) 8#5 = some 0x1FF#32 := by decide

theorem test_ori_whole_immediate :
    regOf (exec (.ori 8#5 9#5 0xFFFFFF00#32) (core [])) 8#5 = some 0xFFFFFF00#32 := by decide

theorem test_xor :
    regOf (exec (.xor 31#5 29#5 30#5) (core [(29#5, 0xFFFF#32), (30#5, 0x00FF00FF#32)])) 31#5 =
      some 0x00FFFF00#32 := by decide

theorem test_sll : regOf (exec (.sll 8#5 9#5 8#32) (core [(9#5, 0x12345678#32)])) 8#5 = some 0x34567800#32 := by decide

theorem test_sll_amount_minus_31 :
    regOf (exec (.sll 8#5 9#5 0xFFFFFFE1#32) (core [(9#5, 5#32)])) 8#5 = some 10#32 := by decide

theorem test_srl_logical :
    regOf (exec (.srl 8#5 9#5 1#32) (core [(9#5, 0xFFFFFFFE#32)])) 8#5 = some 0x7FFFFFFF#32 := by decide

theorem test_srl_amount_63 :
    regOf (exec (.srl 8#5 9#5 63#32) (core [(9#5, 0xFFFFFFFF#32)])) 8#5 = some 1#32 := by decide

theorem test_dump :
    outputOf (exec .dump (core [(2#5, 10#32)])) =
      some ([.dump ([0#32, 0#32, 10#32] ++ List.replicate 29 0#32)], [.executed]) := by decide

/-- The record K1 of the vectors. -/
theorem test_snapshot_K1 :
    outputOf (exec (.snapshot (.tag 0#32)) { core [(2#5, 30#32)] with pc := 2#32 }) =
      some ([.checkpoint (.tag 0#32)
        (List.replicate 8 0#8 ++ [0x1E#8, 0#8, 0#8, 0#8] ++ List.replicate 116 0#8 ++ [3#8, 0#8, 0#8, 0#8])],
        [.executed]) := by decide

theorem test_skip : outputOf (exec .skip (core [])) = some ([], [.skipped]) := by decide

/-- Line 31 of the rendering Y3: `R31=-1` and a line feed. -/
theorem test_render_line : renderLine Config.dumpPrefix 31 0xFFFFFFFF#32 = ascii "R31=-1" ++ [0x0A#8] := by decide

/-- The bytes of `x[1]` in the record K2, under both byte orders. -/
theorem test_word_bytes :
    wordBytes .little 0x12345678#32 = [0x78#8, 0x56#8, 0x34#8, 0x12#8] ∧
      wordBytes .big 0x12345678#32 = [0x12#8, 0x34#8, 0x56#8, 0x78#8] := by decide

/-! ## The step -/

/-- `pc`, `steps` and the run state after an outcome. -/
def countsOf (o : Host.Outcome State Fault Refusal) : Option (Word × Word × RunState) :=
  match o with
  | .next t => some (t.pc, t.steps, t.runState)
  | .fault _ => none
  | .refused _ => none

theorem test_step_advances : countsOf (step (core [])) = some (1#32, 1#32, .running) := by decide

theorem test_step_halts_at_end : countsOf (step { core [] with pc := 1#32 }) = some (2#32, 1#32, .halted) := by decide

theorem test_step_halts_on_quota : countsOf (step { core [] with quota := 1#32 }) = some (1#32, 1#32, .halted) := by decide

/-- The vector of a restored `pc` beyond `LEN`: zero steps, `pc` kept. -/
theorem test_step_restored_beyond_end :
    countsOf (step { core [] with pc := 9#32 }) = some (9#32, 0#32, .halted) := by decide

theorem test_first_step_after_reset_runs_word :
    regOf (step (State.reset.withFetchWord 64 0x010200000000000A)) 2#5 = some 10#32 := by decide

/-! ## Witnesses: for each statement with hypotheses, a state and operands that meet them -/

theorem witness_EncodeDecodeInverse :
    Instr.wellFormed (.add 31#5 31#5 31#5) = true ∧ decodeWord 0x021F1F1F00000000#64 ≠ .skip := by decide

theorem witness_OpcodeRowsExclusive :
    (opcodeRows.get ⟨1, by decide⟩).admits 0x021F1F1F00000000#64 = true := by decide

/-- One word for each clause of `ReservedWordsAreSkips`, with the op byte that the clause names. -/
theorem witness_ReservedWordsAreSkips :
    (0x0000000000000001#64).extractLsb' 56 8 = 0x00#8 ∧ (0x0F00000000000000#64).extractLsb' 56 8 = 0x0F#8 ∧
      ((0x0220000000000000#64).extractLsb' 56 8 = 0x02#8 ∧ (0x0220000000000000#64).extractLsb' 53 3 ≠ 0#3) ∧
      ((0x0E08092000000000#64).extractLsb' 56 8 = 0x0E#8 ∧ (0x0E08092000000000#64).extractLsb' 32 8 ≠ 0#8) ∧
      ((0x0108010000000005#64).extractLsb' 56 8 = 0x01#8 ∧ (0x0108010000000005#64).extractLsb' 32 16 ≠ 0#16) ∧
      ((0x0C00000000000001#64).extractLsb' 56 8 = 0x0C#8 ∧ (0x0C00000000000001#64).extractLsb' 0 56 ≠ 0#56) ∧
      ((0x0D01000000000000#64).extractLsb' 56 8 = 0x0D#8 ∧ (0x0D01000000000000#64).extractLsb' 32 24 ≠ 0#24) := by decide

theorem witness_OrOperandMultiplexer :
    resolveRegister (ascii "$t0") = some 8#5 ∧ resolveRegister (ascii "$t1") = some 9#5 ∧
      resolveRegister (ascii "$31") = some 31#5 ∧
      (resolveRegister (ascii "255") = none ∧ resolveImmediate (ascii "255") = some 255#32) ∧
      (resolveRegister (ascii "$32") = none ∧ resolveImmediate (ascii "$32") = none) ∧ "xor" ∈ ["add", "sub", "mul", "and", "xor"] ∧
      "srl" ∈ ["addi", "ori", "sll", "srl"] := by decide

theorem witness_ResolvedTextDecodes :
    resolveRegister (ascii "$t0") = some 8#5 ∧ resolveRegister (ascii "$t1") = some 9#5 ∧
      resolveImmediate (ascii "-7") = some 0xFFFFFFF9#32 ∧ resolveRegister (ascii "$t2") = some 10#5 := by decide

/-- One text for each disjunct of `MalformedTextSkips`. -/
theorem witness_MalformedTextSkips :
    decodeText ⟨ascii "li", [ascii "$t0", ascii "1"]⟩ ≠ .skip ∧
      decodeText ⟨ascii "xor", [ascii "$t0", ascii "$1", ascii "$2"]⟩ ≠ .skip ∧
      decodeText ⟨ascii "srl", [ascii "$t0", ascii "$1", ascii "2"]⟩ ≠ .skip ∧
      decodeText ⟨ascii "or", [ascii "$t0", ascii "$1", ascii "2"]⟩ ≠ .skip ∧
      decodeText ⟨ascii "DUMP_PROCESSOR_STATE", []⟩ ≠ .skip ∧ decodeText ⟨ascii "SNAPSHOT", [ascii "a"]⟩ ≠ .skip := by decide

/-- A text program of one `SNAPSHOT`. -/
def oneSnapshot : List TextInstr := [⟨ascii "SNAPSHOT", [ascii "a"]⟩]

theorem witness_AssembledProgramSimulates :
    ∃ s t, s.imem = .text oneSnapshot ∧ s.canStep = true ∧ step s = .next t :=
  ⟨{ core [] with imem := .text oneSnapshot }, _, rfl, by decide, rfl⟩

theorem witness_TagsStandForNames :
    oneSnapshot.length ≤ Config.lenMax ∧ ⟨ascii "SNAPSHOT", [ascii "a"]⟩ ∈ oneSnapshot ∧
      snapshotFile ⟨ascii "SNAPSHOT", [ascii "a"]⟩ = some (ascii "a") := by decide

theorem witness_LoaderKeepsGuarantees :
    tokenizeLine (ascii "  add $v0 , ,$v1") = some ⟨ascii "add", [ascii "$v0", ascii "$v1"]⟩ := by decide

/-- The amounts at the ends of the two clauses of `ShiftPoliciesAgreeInRange`. -/
theorem witness_ShiftPoliciesAgreeInRange :
    (0#32).toInt = 0 ∧ (31#32).toInt = 31 ∧ (32#32).toInt = 32 ∧ (0xFFFFFFFF#32).toInt = -1 := by decide

/-- The amounts 0 and 1 (mod 32) on the two sides of the last clause of `SrlMovesBitsDown`. -/
theorem witness_SrlMovesBitsDown : (33#32).toNat % 32 ≠ 0 := by decide

theorem witness_SnapshotEmitsRecord : (1#32 : Word).toNat = (core []).pc.toNat + 1 := by
  decide

theorem witness_ZeroPortDiscardsWrites : destReg (.li 0#5 5#32) = some 0#5 := by decide

theorem witness_ExecuteFrame :
    destReg (.add 8#5 9#5 10#5) ≠ some 9#5 ∧ Instr.li 8#5 5#32 ≠ .dump ∧
      (∀ name, Instr.li 8#5 5#32 ≠ .snapshot name) :=
  ⟨by decide, by decide, fun _ => by simp⟩

theorem witness_StepRunsDecodedEntry :
    ∃ u, (core []).ports.rst = false ∧ (core []).runState = .running ∧
      (core []).pc.toNat < (core []).imem.len.toNat ∧ (core []).steps.toNat < (core []).quota.toNat ∧
      (core []).imem.entry (core []).pc.toNat = some (.word skipWord) ∧
      exec (decodeEntry (.word skipWord)) (core []) = .next u :=
  ⟨_, rfl, rfl, by decide, by decide, rfl, rfl⟩

theorem witness_FetchStaysInStore : (core []).canStep = true := by decide

/-- The last index below the end, and the end itself. -/
theorem witness_StepAdvancesByOne :
    (∃ s t, s.ports.rst = false ∧ s.runState = .running ∧ s.pc.toNat + 1 = s.imem.len.toNat ∧
      s.steps.toNat < s.quota.toNat ∧ step s = .next t) ∧
      (∃ s t, s.ports.rst = false ∧ s.runState = .running ∧ s.imem.len.toNat ≤ s.pc.toNat ∧ step s = .next t) :=
  ⟨⟨{ core [] with pc := 1#32 }, _, rfl, rfl, by decide, by decide, rfl⟩,
    ⟨{ core [] with pc := 2#32 }, _, rfl, rfl, by decide, rfl⟩⟩

/-- A state at a bound before the step, and one that reaches the bound in it. -/
theorem witness_HaltsExactlyAtBounds :
    (∃ s t, s.ports.rst = false ∧ s.runState = .running ∧ s.imem.len.toNat ≤ s.pc.toNat ∧ step s = .next t) ∧
      (∃ s t, s.ports.rst = false ∧ s.runState = .running ∧ s.canStep = true ∧ step s = .next t) :=
  ⟨⟨{ core [] with pc := 2#32 }, _, rfl, rfl, by decide, rfl⟩, ⟨core [], _, rfl, rfl, by decide, rfl⟩⟩

/-- A HALTED core after an empty run. -/
def haltedCore : State := { State.reset with runState := .halted }

theorem witness_HaltedIsTerminal : haltedCore.runState = .halted ∧ haltedCore.ports.rst = false ∧ haltedCore.Inv := by
  refine ⟨rfl, rfl, ?_⟩
  constructor <;> decide

theorem witness_RunStateTransitions :
    (∃ t, State.reset.runState = .ready ∧ State.reset.ports.rst = false ∧ step State.reset = .next t) ∧
      (∃ t, (core []).runState = .running ∧ (core []).ports.rst = false ∧ step (core []) = .next t) ∧
      (∃ t, haltedCore.runState = .halted ∧ haltedCore.ports.rst = false ∧ step haltedCore = .next t) :=
  ⟨⟨_, rfl, rfl, rfl⟩, ⟨_, rfl, rfl, rfl⟩, ⟨_, rfl, rfl, rfl⟩⟩

theorem witness_StoreIsImmutable : ∃ t, step (core []) = .next t := ⟨_, rfl⟩

theorem witness_EventsOnlyGrow : ∃ t, (core []).ports.rst = false ∧ step (core []) = .next t := ⟨_, rfl, rfl⟩

theorem witness_OutputIsNeverRead :
    ∃ t t', SameButOutput (core []) { core [] with outcomes := [.skipped] } ∧ step (core []) = .next t ∧
      step { core [] with outcomes := [.skipped] } = .next t' ∧ (core []).ports.rst = false :=
  ⟨_, _, rfl, rfl, rfl, rfl⟩

/-- A READY core with the given ports. -/
def readyCore (rst restoreValid start : Bool) : State :=
  { State.reset with ports := { InputPorts.idle with rst := rst, restoreValid := restoreValid, start := start } }

theorem witness_ResetFromEveryState : (readyCore true false false).ports.rst = true := rfl

theorem witness_StartBeginsRun :
    (readyCore false false true).ports.rst = false ∧ (readyCore false false true).runState = .ready ∧
      (readyCore false false true).ports.restoreValid = false ∧ (readyCore false false true).ports.start = true := by
  decide

theorem witness_RestoreLoadsState :
    (readyCore false true false).ports.rst = false ∧ (readyCore false true false).runState = .ready ∧
      (readyCore false true false).ports.restoreValid = true ∧ (readyCore false true false).ports.start = false := by
  decide

theorem witness_RestoreAndStartOnlyInReady :
    ∃ t, (core []).ports.rst = false ∧ (readyCore false true true).ports.rst = false ∧ (core []).runState ≠ .ready ∧
      step (core []) = .next t :=
  ⟨_, rfl, rfl, by decide, rfl⟩

/-- The invariant holds of a RUNNING core in the middle of a run, not at reset only. -/
theorem witness_StepKeepsInvariant :
    ∃ s t, s.runState = .running ∧ s.steps = 1#32 ∧ s.Inv ∧ step s = .next t := by
  refine ⟨{ core [] with pc := 1#32, steps := 1#32, outcomes := [.executed] }, _, rfl, rfl, ?_, rfl⟩
  constructor <;> decide

theorem witness_QuotaBoundsEveryRun :
    (core []).ports.rst = false ∧ (core []).runState = .running ∧ (core []).steps = 0#32 := by decide

theorem witness_RunOfEveryConfigurationHalts : Memory.wf (.words [skipWord]) = true := by decide

theorem witness_SnapshotThenRestoreResumes :
    (∃ vm, decodeRecord .little ((core []).snapshotRecord .little) = some vm) ∧ (core []).pc.toNat + 1 < 2 ^ 32 := by
  refine ⟨Option.isSome_iff_exists.mp ?_, by decide⟩
  simp [State.snapshotRecord, decodeRecord_isSome, encodeRecord_length, Config.snapBytes]

theorem witness_SnapshotFileLoading :
    (List.replicate 132 0#8 : List Byte).length = 132 ∧ (List.replicate 131 0#8 : List Byte).length ≠ 132 ∧
      (List.replicate 133 0#8 : List Byte).length ≠ 132 := by simp

theorem witness_StatusOutputs :
    ((core []).runState = .running ∧ (core []).ports.rst = false ∧ (core []).canStep = true) ∧
      (core []).imemAddr = some 0#32 ∧ haltedCore.runState = .halted ∧ haltedCore.imemAddr = none := by decide

/-- A request whose program saves under a tag that the empty table lacks, and the same request without a quota. -/
def savingRequest (quota : Option Count) : RunRequest :=
  { source := some (.words [0x0D00000000000000#64]), snapshot := none, quota := quota, names := [], unwritable := [] }

theorem witness_RequestReports :
    (savingRequest none).quota = none ∧ (savingRequest (some 1)).source = some (.words [0x0D00000000000000#64]) ∧
      (savingRequest (some 1)).quota = some 1 ∧ resolveName (savingRequest (some 1)).names (.tag 0#32) = none := by decide

theorem test_request_reports_failed_save : (runRequest (savingRequest (some 1))).2 = [.snapshotSaveFailed] := by decide

end Sys2Proof.Tests
end

section
/-! PROOFS. The state of the core (spec/10_state.md): what the execute phase changes and leaves, what a step outputs, and
the invariant. -/

namespace Sys2Proof.Machine

/-! ### The execute phase, by the control table -/

/-- The execute phase of every instruction is its row of the control table (R70), under the configured policies. -/
theorem exec_eq_runControl (i : Instr) (s : State) :
    exec i s = .next (runControl Config.shamtPolicy Config.snapEndian (controlOf i) s) := by
  cases i <;> rfl

/-- Under the configured policy every ALU function has a result: no shift amount is without meaning (R102, D8). -/
theorem alu_total (fn : AluFn) (a b : Word) : ∃ v, alu Config.shamtPolicy fn a b = some v := by
  cases fn <;> exact ⟨_, rfl⟩

/-- What a row of the control table does to a state: a register write, one event, or a skip (R70, R86, R110 to R112). -/
def Control.Effect (c : Control) (s t : State) : Prop :=
  match c with
  | .alu a => ∃ v, Machine.alu Config.shamtPolicy a.fn (operandA a.a s) (operandB a.b s) = some v ∧ WritesReg s t a.rd v
  | .emitDump => EmitsEvent s t (.dump s.regValues)
  | .emitCheckpoint name => EmitsEvent s t (.checkpoint name (s.snapshotRecord Config.snapEndian))
  | .idle => SkipsOnly s t

/-- The control table's rows have the effects named for them. -/
theorem runControl_effect (c : Control) (s : State) :
    c.Effect s (runControl Config.shamtPolicy Config.snapEndian c s) := by
  cases c with
  | alu a =>
    obtain ⟨v, hv⟩ := alu_total a.fn (operandA a.a s) (operandB a.b s)
    refine ⟨v, hv, ?_⟩
    obtain ⟨t, ht, hw⟩ := writeResult_spec a.rd v s
    cases ht
    simpa only [runControl, runAlu, hv] using hw
  | emitDump =>
    obtain ⟨t, ht, he⟩ := emitEvent_spec (.dump s.regValues) s
    cases ht
    exact he
  | emitCheckpoint name =>
    obtain ⟨t, ht, he⟩ := emitEvent_spec (.checkpoint name (s.snapshotRecord Config.snapEndian)) s
    cases ht
    exact he
  | idle =>
    obtain ⟨t, ht, hs⟩ := skipInstr_spec s
    cases ht
    exact hs

/-- The execute phase always completes, with the effect of the instruction's row (R130, R151). -/
theorem exec_effect (i : Instr) (s : State) : ∃ t, exec i s = .next t ∧ (controlOf i).Effect s t :=
  ⟨_, exec_eq_runControl i s, runControl_effect _ s⟩

/-- The effect of an execute phase that is known to answer `t`. -/
theorem effect_of_exec {i : Instr} {s t : State} (h : exec i s = .next t) : (controlOf i).Effect s t := by
  obtain ⟨u, hu, he⟩ := exec_effect i s
  rw [h] at hu
  cases hu
  exact he

theorem controlOf_eq_idle_iff (i : Instr) : controlOf i = .idle ↔ i = .skip := by
  cases i <;> simp [controlOf]

theorem controlOf_eq_emitDump_iff (i : Instr) : controlOf i = .emitDump ↔ i = .dump := by
  cases i <;> simp [controlOf]

theorem controlOf_eq_emitCheckpoint_iff (i : Instr) (name : SnapshotName) :
    controlOf i = .emitCheckpoint name ↔ i = .snapshot name := by
  cases i <;> simp [controlOf]

/-- Only the ALU rows have a destination (R13). -/
theorem destReg_eq_some_iff (i : Instr) (rd : RegIdx) :
    destReg i = some rd ↔ ∃ a, controlOf i = .alu a ∧ a.rd = rd := by
  unfold destReg
  cases controlOf i <;> simp

/-! ### What every effect leaves unchanged, and what it outputs -/

theorem Control.Effect.sameControl {c : Control} {s t : State} (h : c.Effect s t) : SameControl s t := by
  cases c with
  | alu a => obtain ⟨v, -, -, -, -, hc⟩ := h; exact hc
  | emitDump => obtain ⟨-, -, -, hc⟩ := h; exact hc
  | emitCheckpoint name => obtain ⟨-, -, -, hc⟩ := h; exact hc
  | idle => obtain ⟨-, -, -, hc⟩ := h; exact hc

/-- Every effect records one outcome, SKIPPED for the skip alone (R130). -/
theorem Control.Effect.outcomes {c : Control} {s t : State} (h : c.Effect s t) :
    t.outcomes = s.outcomes ++ [if c = .idle then .skipped else .executed] := by
  cases c with
  | alu a => obtain ⟨v, -, -, -, ho, -⟩ := h; exact ho
  | emitDump => obtain ⟨-, -, ho, -⟩ := h; exact ho
  | emitCheckpoint name => obtain ⟨-, -, ho, -⟩ := h; exact ho
  | idle => obtain ⟨-, -, ho, -⟩ := h; exact ho

/-- A register that is not the destination keeps its value (R13). -/
theorem Control.Effect.readReg {c : Control} {s t : State} (h : c.Effect s t) (r : RegIdx)
    (hr : ∀ a, c = .alu a → a.rd ≠ r) : t.readReg r = s.readReg r := by
  cases c with
  | alu a =>
    obtain ⟨v, -, hread, -⟩ := h
    rw [hread, if_neg fun hc => hr a rfl hc.1.symm]
  | emitDump => obtain ⟨hread, -⟩ := h; exact hread r
  | emitCheckpoint name => obtain ⟨hread, -⟩ := h; exact hread r
  | idle => obtain ⟨hread, -⟩ := h; exact hread r

/-- The events a row of the control table emits from a state (R24, R110, R111). -/
def Control.emitted (c : Control) (s : State) : List Event :=
  match c with
  | .alu _ => []
  | .emitDump => [.dump s.regValues]
  | .emitCheckpoint name => [.checkpoint name (s.snapshotRecord Config.snapEndian)]
  | .idle => []

theorem Control.Effect.events {c : Control} {s t : State} (h : c.Effect s t) :
    t.events = s.events ++ c.emitted s := by
  cases c with
  | alu a => obtain ⟨v, -, -, he, -⟩ := h; simpa [Control.emitted] using he
  | emitDump => obtain ⟨-, he, -⟩ := h; exact he
  | emitCheckpoint name => obtain ⟨-, he, -⟩ := h; exact he
  | idle => obtain ⟨-, he, -⟩ := h; simpa [Control.emitted] using he

theorem Control.emitted_length_le (c : Control) (s : State) : (c.emitted s).length ≤ 1 := by
  cases c <;> simp [Control.emitted]

/-! ### Obligations about the execute phase -/

/-- A write to register 0 changes no register (R11). -/
theorem WritesReg.readReg_of_zero {s t : State} {v : Word} (h : WritesReg s t 0#5 v) (r : RegIdx) :
    t.readReg r = s.readReg r := by
  obtain ⟨hread, -⟩ := h
  rw [hread, if_neg fun hc => hc.2 hc.1]

/-- Settles O31: the write of an instruction with destination 0 goes through the zero-port rule. -/
theorem zeroPortDiscardsWrites : Obligations.ZeroPortDiscardsWrites := by
  refine ⟨State.readReg_zero, fun s vm => State.readReg_zero _, fun i s hd => ?_⟩
  obtain ⟨a, hc, ha⟩ := (destReg_eq_some_iff i 0#5).mp hd
  obtain ⟨t, ht, heff⟩ := exec_effect i s
  rw [hc] at heff
  obtain ⟨v, -, hw⟩ := heff
  rw [ha] at hw
  have hregs := hw.readReg_of_zero
  obtain ⟨-, hev, hout, hctl⟩ := hw
  exact ⟨t, ht, hregs, hev, hout, hctl⟩

/-- Settles O32, from the effect of the instruction's row of the control table. -/
theorem executeFrame : Obligations.ExecuteFrame := by
  intro i s
  obtain ⟨t, ht, heff⟩ := exec_effect i s
  refine ⟨t, ht, heff.sameControl, fun r hr => ?_, ?_, ?_, fun hdump hsnap => ?_⟩
  · exact heff.readReg r fun a ha hrd => hr ((destReg_eq_some_iff i r).mpr ⟨a, ha, hrd⟩)
  · simpa only [controlOf_eq_idle_iff] using heff.outcomes
  · rintro (rfl | ⟨name, rfl⟩)
    · exact ⟨_, heff.events⟩
    · exact ⟨_, heff.events⟩
  · have hnone : (controlOf i).emitted s = [] := by
      cases hc : controlOf i with
      | alu a => rfl
      | emitDump => exact absurd ((controlOf_eq_emitDump_iff i).mp hc) hdump
      | emitCheckpoint name => exact absurd ((controlOf_eq_emitCheckpoint_iff i name).mp hc) (hsnap name)
      | idle => rfl
    simpa [hnone] using heff.events

/-! ### One step, from each kind of state -/

theorem step_of_rst {s : State} (h : s.ports.rst = true) : step s = .next s.resetCore := by
  simp [step, h]

theorem step_of_ready {s : State} (h : s.ports.rst = false) (hs : s.runState = .ready) :
    step s = .next s.readyStep := by
  simp [step, h, hs]

theorem step_of_halted {s : State} (h : s.ports.rst = false) (hs : s.runState = .halted) : step s = .next s := by
  simp [step, h, hs]

/-- In RUNNING with a bound reached, the step halts and fetches nothing (R127, R133). -/
theorem step_of_bound {s : State} (h : s.ports.rst = false) (hs : s.runState = .running) (hc : s.canStep = false) :
    step s = .next s.halt := by
  simp [step, h, hs, runStep, hc]

/-- In RUNNING below both bounds, the step is the execute phase of the entry at `pc`, the advance and the halt check
(R128 to R133). -/
theorem step_of_exec {s u : State} {e : StoreEntry} (h : s.ports.rst = false) (hs : s.runState = .running)
    (hc : s.canStep = true) (he : s.imem.entry s.pc.toNat = some e) (hu : exec (decodeEntry e) s = .next u) :
    step s = .next u.advance.haltCheck := by
  simp [step, h, hs, runStep_of_canStep hc he, runEntry, hu]

@[simp] theorem State.readyStep_events (s : State) : s.readyStep.events = s.events := by
  obtain ⟨-, -, h⟩ | ⟨-, -, h⟩ | ⟨-, -, h⟩ | ⟨-, -, h⟩ := s.readyStep_cases <;> simp [h]

@[simp] theorem State.readyStep_outcomes (s : State) : s.readyStep.outcomes = s.outcomes := by
  obtain ⟨-, -, h⟩ | ⟨-, -, h⟩ | ⟨-, -, h⟩ | ⟨-, -, h⟩ := s.readyStep_cases <;> simp [h]

/-- Settles O42: of the steps without `rst`, only the one that executes an instruction outputs anything. -/
theorem eventsOnlyGrow : Obligations.EventsOnlyGrow := by
  intro s t hrst h
  obtain ⟨hr, -⟩ | ⟨-, -, rfl⟩ | ⟨-, -, rfl⟩ | ⟨-, -, -, rfl⟩ | ⟨-, -, -, e, u, -, hu, rfl⟩ := step_cases h
  case inl => simp [hrst] at hr
  case inr.inl => exact ⟨⟨[], by simp⟩, ⟨[], by simp⟩⟩
  case inr.inr.inl => exact ⟨⟨[], by simp⟩, ⟨[], by simp⟩⟩
  case inr.inr.inr.inl => exact ⟨⟨[], by simp⟩, ⟨[], by simp⟩⟩
  case inr.inr.inr.inr =>
    have heff := effect_of_exec hu
    exact ⟨⟨_, heff.events, Control.emitted_length_le _ s⟩, ⟨_, heff.outcomes, Nat.le_refl 1⟩⟩

/-! ### No step reads the output -/

/-- A state with other output. -/
def State.withOutput (s : State) (es : List Event) (os : List StepOutcome) : State :=
  { s with events := es, outcomes := os }

theorem sameButOutput_iff (s s' : State) : SameButOutput s s' ↔ ∃ es os, s' = s.withOutput es os := by
  constructor
  · intro h
    exact ⟨s'.events, s'.outcomes, h⟩
  · rintro ⟨es, os, rfl⟩
    rfl

@[simp] theorem operandA_withOutput (a : Option RegIdx) (s : State) (es : List Event) (os : List StepOutcome) :
    operandA a (s.withOutput es os) = operandA a s := by
  cases a <;> rfl

@[simp] theorem operandB_withOutput (b : BSelect) (s : State) (es : List Event) (os : List StepOutcome) :
    operandB b (s.withOutput es os) = operandB b s := by
  cases b <;> rfl

/-- From `s` to `t` and from `s'` to `t'` the same events are appended, and `t` and `t'` differ in output only. -/
def EmitsAlike (s s' t t' : State) : Prop :=
  SameButOutput t t' ∧ ∃ es, t.events = s.events ++ es ∧ t'.events = s'.events ++ es

/-- Where both sides append the same events, `emittedEvents` agrees. -/
theorem EmitsAlike.emittedEvents_eq {s s' t t' : State} (h : EmitsAlike s s' t t') :
    emittedEvents s t = emittedEvents s' t' := by
  obtain ⟨-, es, ht, ht'⟩ := h
  simp [emittedEvents, ht, ht']

/-- What leaves the events alone and keeps two states alike emits alike. -/
theorem emitsAlike_of_events_eq {s s' t t' : State} (h : SameButOutput t t') (ht : t.events = s.events)
    (ht' : t'.events = s'.events) : EmitsAlike s s' t t' :=
  ⟨h, [], by simp [ht], by simp [ht']⟩

/-- The datapath reads the registers and `pc`, never the output (R70). -/
theorem runControl_emitsAlike (p : ShamtPolicy) (e : SnapEndian) (c : Control) {s s' : State}
    (h : SameButOutput s s') : EmitsAlike s s' (runControl p e c s) (runControl p e c s') := by
  obtain ⟨es, os, rfl⟩ := (sameButOutput_iff s s').mp h
  cases c with
  | alu a =>
    simp only [runControl, runAlu, operandA_withOutput, operandB_withOutput]
    cases alu p a.fn (operandA a.a s) (operandB a.b s) with
    | none => exact emitsAlike_of_events_eq rfl rfl rfl
    | some v => exact emitsAlike_of_events_eq rfl rfl rfl
  | emitDump => exact ⟨rfl, [.dump s.regValues], rfl, rfl⟩
  | emitCheckpoint name => exact ⟨rfl, [.checkpoint name (s.snapshotRecord e)], rfl, rfl⟩
  | idle => exact emitsAlike_of_events_eq rfl rfl rfl

/-- The advance and the halt check read the counters and bounds, never the output (R132, R133). -/
theorem EmitsAlike.advance_haltCheck {s s' u u' : State} (h : EmitsAlike s s' u u') :
    EmitsAlike s s' u.advance.haltCheck u'.advance.haltCheck := by
  obtain ⟨hsame, hev⟩ := h
  obtain ⟨es, os, rfl⟩ := (sameButOutput_iff u u').mp hsame
  exact ⟨rfl, hev⟩

/-- Restore and start read the ports, never the output (R126, R136). -/
theorem State.readyStep_withOutput (s : State) (es : List Event) (os : List StepOutcome) :
    (s.withOutput es os).readyStep = s.readyStep.withOutput es os := by
  cases hv : s.ports.restoreValid <;> cases hst : s.ports.start <;>
    simp [State.readyStep, State.restoreIfAsserted, State.startIfAsserted, State.withOutput, State.restore,
      State.startRun, hv, hst]

theorem readyStep_emitsAlike {s s' : State} (h : SameButOutput s s') :
    EmitsAlike s s' s.readyStep s'.readyStep := by
  refine emitsAlike_of_events_eq ?_ (State.readyStep_events s) (State.readyStep_events s')
  obtain ⟨es, os, rfl⟩ := (sameButOutput_iff s s').mp h
  exact (sameButOutput_iff _ _).mpr ⟨es, os, s.readyStep_withOutput es os⟩

/-- A step from a state with other output answers as the step it is compared with does, and emits the same. -/
theorem step_emitsAlike {s s' t : State} (h : SameButOutput s s') (ht : step s = .next t) :
    ∃ t', step s' = .next t' ∧ SameButOutput t t' ∧ (s.ports.rst = false → EmitsAlike s s' t t') := by
  have hsame := h
  obtain ⟨es, os, rfl⟩ := (sameButOutput_iff s s').mp h
  obtain ⟨hr, rfl⟩ | ⟨hr, hs, rfl⟩ | ⟨hr, hs, rfl⟩ | ⟨hr, hs, hc, rfl⟩ | ⟨hr, hs, hc, e, u, he, hu, rfl⟩ :=
    step_cases ht
  case inl => exact ⟨_, step_of_rst hr, rfl, fun hf => absurd hr (by simp [hf])⟩
  case inr.inl =>
    have halike := readyStep_emitsAlike hsame
    exact ⟨_, step_of_ready hr hs, halike.1, fun _ => halike⟩
  case inr.inr.inl => exact ⟨_, step_of_halted hr hs, hsame, fun _ => emitsAlike_of_events_eq hsame rfl rfl⟩
  case inr.inr.inr.inl =>
    exact ⟨_, step_of_bound hr hs hc, rfl, fun _ => emitsAlike_of_events_eq rfl rfl rfl⟩
  case inr.inr.inr.inr =>
    rw [exec_eq_runControl] at hu
    cases hu
    have halike := (runControl_emitsAlike Config.shamtPolicy Config.snapEndian (controlOf (decodeEntry e))
      hsame).advance_haltCheck
    exact ⟨_, step_of_exec hr hs hc he (exec_eq_runControl _ _), halike.1, fun _ => halike⟩

/-- Settles O43: a step is determined, so the two steps are the two that `step_emitsAlike` compares. -/
theorem outputIsNeverRead : Obligations.OutputIsNeverRead := by
  intro s s' t t' h ht ht'
  obtain ⟨u, hu, hsame, halike⟩ := step_emitsAlike h ht
  rw [ht'] at hu
  cases hu
  exact ⟨hsame, fun hrst => (halike hrst).emittedEvents_eq⟩

/-! ### Emitted events are well formed -/

/-- The register values begin with register 0, which reads 0 (R11, R110). -/
theorem State.regValues_eq_zero_cons (s : State) : ∃ rest, s.regValues = 0#32 :: rest := by
  refine ⟨((List.range' 1 31).map (BitVec.ofNat 5)).map s.readReg, ?_⟩
  rw [← s.readReg_zero]
  rfl

theorem wordBytes_zero (e : SnapEndian) : wordBytes e 0#32 = List.replicate 4 0#8 := by
  cases e <;> decide

theorem dump_regValues_wf (s : State) : (Event.dump s.regValues).wf = true := by
  obtain ⟨rest, hrest⟩ := s.regValues_eq_zero_cons
  have hlen := s.regValues_length
  have hhead : s.regValues.head? = some 0#32 := by rw [hrest, List.head?_cons]
  simp [Event.wf, hlen, hhead]

theorem checkpoint_snapshotRecord_wf (name : SnapshotName) (e : SnapEndian) (s : State) :
    (Event.checkpoint name (s.snapshotRecord e)).wf = true := by
  obtain ⟨rest, hrest⟩ := s.regValues_eq_zero_cons
  have hlen : (s.snapshotRecord e).length = Config.snapBytes := by
    simp [State.snapshotRecord, encodeRecord_length, Config.snapBytes]
  have hzero : (s.snapshotRecord e).take 4 = List.replicate 4 0#8 := by
    simp [State.snapshotRecord, encodeRecord, hrest, wordBytes_zero]
  simp [Event.wf, hlen, hzero]

theorem Control.emitted_all_wf (c : Control) (s : State) : (c.emitted s).all Event.wf = true := by
  cases c with
  | alu a => rfl
  | emitDump => simp [Control.emitted, dump_regValues_wf]
  | emitCheckpoint name => simp [Control.emitted, checkpoint_snapshotRecord_wf]
  | idle => rfl

/-! ### The invariant, operation by operation -/

/-- Settles O49. -/
theorem resetMeetsInvariant : Obligations.ResetMeetsInvariant where
  store := State.reset_imem_wf
  ready := fun _ => rfl
  bounded := fun h => absurd rfl h
  halted := fun h => nomatch h
  oneOutcome := rfl
  oneEvent := Nat.le_refl 0
  events := rfl

/-- `rst` keeps the store, so a reset core meets the invariant as `State.reset` does (R170, log entry 7). -/
theorem State.Inv.resetCore {s : State} (h : s.Inv) : s.resetCore.Inv :=
  { resetMeetsInvariant with
    store := h.store
    halted := fun hh => nomatch hh }

/-- The invariant reads neither the registers nor, outside HALTED, `pc`. -/
theorem State.Inv.restore {s : State} (h : s.Inv) (hs : s.runState = .ready) (vm : VMState) : (s.restore vm).Inv where
  store := by simpa using h.store
  ready := by simpa using h.ready
  bounded := by simpa using h.bounded
  halted := by simp [hs]
  oneOutcome := by simpa using h.oneOutcome
  oneEvent := by simpa using h.oneEvent
  events := by simpa using h.events

/-- In READY no step has been counted, so a start, which clears the counter, leaves it as it is (R126). -/
theorem State.Inv.startRun {s : State} (h : s.Inv) (hs : s.runState = .ready) : s.startRun.Inv where
  store := h.store
  ready := fun hh => nomatch hh
  bounded := fun _ => Nat.zero_le _
  halted := fun hh => nomatch hh
  oneOutcome := by simpa [h.ready hs] using h.oneOutcome
  oneEvent := by simpa [h.ready hs] using h.oneEvent
  events := h.events

theorem State.Inv.readyStep {s : State} (h : s.Inv) (hs : s.runState = .ready) : s.readyStep.Inv := by
  obtain ⟨-, -, heq⟩ | ⟨-, -, heq⟩ | ⟨-, -, heq⟩ | ⟨-, -, heq⟩ := s.readyStep_cases <;> rw [heq]
  · exact h
  · exact h.restore hs _
  · exact h.startRun hs
  · exact (h.restore hs _).startRun (by simpa using hs)

/-- Halting where a bound is reached (R133). -/
theorem State.Inv.halt {s : State} (h : s.Inv) (hs : s.runState ≠ .ready) (hc : s.canStep = false) : s.halt.Inv where
  store := h.store
  ready := fun hh => nomatch hh
  bounded := fun _ => h.bounded hs
  halted := fun _ => hc
  oneOutcome := h.oneOutcome
  oneEvent := h.oneEvent
  events := h.events

theorem State.Inv.haltCheck {s : State} (h : s.Inv) (hs : s.runState ≠ .ready) : s.haltCheck.Inv := by
  obtain ⟨-, heq⟩ | ⟨hc, heq⟩ := s.haltCheck_cases <;> rw [heq]
  · exact h
  · exact h.halt hs hc

/-- The execute phase and the advance together: one more step counted, one more outcome, at most one more event, and
the counter still within the quota because a step was allowed (R127, R130, R132). -/
theorem State.Inv.exec_advance {i : Instr} {s u : State} (h : s.Inv) (hs : s.runState = .running)
    (hc : s.canStep = true) (hu : exec i s = .next u) : u.advance.Inv := by
  have heff := effect_of_exec hu
  obtain ⟨-, hsteps, hrun, hquota, himem, -⟩ := heff.sameControl
  have hcount : u.advance.steps.toNat = s.steps.toNat + 1 := by
    have := (s.advance_toNat hc).2
    simpa [hsteps] using this
  have hout := congrArg List.length heff.outcomes
  have hev := congrArg List.length heff.events
  have hone := Control.emitted_length_le (controlOf i) s
  have hrunning : u.advance.runState = .running := hrun.trans hs
  rw [List.length_append] at hout hev
  exact
    { store := by simpa [himem] using h.store
      ready := fun hh => nomatch hrunning.symm.trans hh
      bounded := fun _ => by
        have hlt := ((s.canStep_iff).mp hc).2
        rw [BitVec.le_def, hcount, State.advance_quota, hquota]
        exact hlt
      halted := fun hh => nomatch hrunning.symm.trans hh
      oneOutcome := by
        rw [hcount, State.advance_outcomes, hout, h.oneOutcome]
        rfl
      oneEvent := by
        have := h.oneEvent
        rw [hcount, State.advance_events, hev]
        omega
      events := by
        rw [State.advance_events, heff.events, List.all_append, h.events, Control.emitted_all_wf]
        rfl }

/-- Settles O50: each of the five kinds of step is made of operations that keep the invariant. -/
theorem stepKeepsInvariant : Obligations.StepKeepsInvariant := by
  intro s t hinv h
  obtain ⟨-, rfl⟩ | ⟨-, hs, rfl⟩ | ⟨-, -, rfl⟩ | ⟨-, hs, hc, rfl⟩ | ⟨-, hs, hc, e, u, -, hu, rfl⟩ := step_cases h
  case inl => exact hinv.resetCore
  case inr.inl => exact hinv.readyStep hs
  case inr.inr.inl => exact hinv
  case inr.inr.inr.inl => exact hinv.halt (by simp [hs]) hc
  case inr.inr.inr.inr =>
    obtain ⟨-, -, hrun, -⟩ := (effect_of_exec hu).sameControl
    exact (hinv.exec_advance hs hc hu).haltCheck (by simp [hrun, hs])

/-! ### Reset values and status outputs -/

/-- Settles O44: the registers are those of a core that `rst` has reset. -/
theorem resetValues : Obligations.ResetValues :=
  ⟨State.readReg_resetCore State.reset, rfl, rfl, rfl, rfl⟩

/-- The fetch address has a value exactly where a step fetches, and it is `pc` (R26, log entry 13). -/
theorem State.imemAddr_eq_some_iff (s : State) (a : Word) :
    s.imemAddr = some a ↔ (s.runState = .running ∧ s.ports.rst = false ∧ s.canStep = true) ∧ s.pc = a := by
  simp [State.imemAddr]

theorem State.atEnd_eq (s : State) : s.atEnd = decide (s.imem.len.toNat ≤ s.pc.toNat) := by
  simp [State.atEnd, BitVec.le_def]

theorem State.quotaReached_eq (s : State) : s.quotaReached = decide (s.quota.toNat ≤ s.steps.toNat) := by
  simp [State.quotaReached, BitVec.le_def]

/-- Settles O57: the codes by evaluation, the fetch address and the halt flags by their conditions. -/
theorem statusOutputs : Obligations.StatusOutputs := by
  refine ⟨rfl, rfl, rfl, rfl, rfl, fun s => ⟨rfl, rfl⟩, fun s hs hr hc => ?_, fun s a ha => ?_, fun s hs => ?_⟩
  · exact (s.imemAddr_eq_some_iff s.pc).mpr ⟨⟨hs, hr, hc⟩, rfl⟩
  · obtain ⟨⟨-, -, hc⟩, rfl⟩ := (s.imemAddr_eq_some_iff a).mp ha
    exact ⟨rfl, ((s.canStep_iff).mp hc).1⟩
  · simp [State.haltEndPort, State.haltQuotaPort, hs, State.atEnd_eq, State.quotaReached_eq]

end Sys2Proof.Machine
end

section
/-! PROOFS. Memory (spec/20_memory.md): the instruction store, which a fetch stays inside and no step writes, and the
snapshot record, which decodes to the state it was made of. -/

namespace Sys2Proof.Machine

/-! ### The instruction store -/

/-- `LEN` does not exceed the number of entries; it is less only for a store beyond `LEN_MAX` (R19, log entry 2). -/
theorem IMem.len_toNat_le_size (m : IMem) : m.len.toNat ≤ m.size := by
  rw [IMem.len_toNat]
  exact Nat.min_le_left _ _

/-- Settles O35: the loop condition bounds `pc` by `LEN`, which the store reaches. -/
theorem fetchStaysInStore : Obligations.FetchStaysInStore := by
  intro s hc
  obtain ⟨hpc, -⟩ := s.canStep_iff.mp hc
  exact ⟨Nat.lt_of_lt_of_le hpc s.imem.len_toNat_le_size, s.imem.entry_of_lt _ hpc⟩

@[simp] theorem State.readyStep_imem (s : State) : s.readyStep.imem = s.imem := by
  obtain ⟨-, -, h⟩ | ⟨-, -, h⟩ | ⟨-, -, h⟩ | ⟨-, -, h⟩ := s.readyStep_cases <;> simp [h]

@[simp] theorem State.readyStep_ports (s : State) : s.readyStep.ports = s.ports := by
  obtain ⟨-, -, h⟩ | ⟨-, -, h⟩ | ⟨-, -, h⟩ | ⟨-, -, h⟩ := s.readyStep_cases <;> simp [h]

/-- Settles O41: each of the five kinds of step is made of operations that leave store and ports alone; for the execute
phase that is the frame of its effect. -/
theorem storeIsImmutable : Obligations.StoreIsImmutable := by
  intro s t h
  obtain ⟨-, rfl⟩ | ⟨-, -, rfl⟩ | ⟨-, -, rfl⟩ | ⟨-, -, -, rfl⟩ | ⟨-, -, -, e, u, -, hu, rfl⟩ := step_cases h
  case inl => exact ⟨s.resetCore_imem, s.resetCore_ports⟩
  case inr.inl => exact ⟨s.readyStep_imem, s.readyStep_ports⟩
  case inr.inr.inl => exact ⟨rfl, rfl⟩
  case inr.inr.inr.inl => exact ⟨s.halt_imem, s.halt_ports⟩
  case inr.inr.inr.inr =>
    obtain ⟨-, -, -, -, himem, hports⟩ := (effect_of_exec hu).sameControl
    exact ⟨by simp [himem], by simp [hports]⟩

/-! ### The snapshot record -/

/-- The fields of a record are the values and the saved `pc` it was made of, however many values there are (R43). -/
theorem recordFields_encodeRecord (e : SnapEndian) (values : List Word) (savedPc : Word) :
    recordFields e (encodeRecord e values savedPc) = values ++ [savedPc] := by
  induction values with
  | nil =>
    calc recordFields e (encodeRecord e [] savedPc)
      _ = recordFields e (wordBytes e savedPc ++ []) := by simp [encodeRecord]
      _ = [savedPc] := recordFields_wordBytes e savedPc []
  | cons v rest ih =>
    calc recordFields e (encodeRecord e (v :: rest) savedPc)
      _ = recordFields e (wordBytes e v ++ encodeRecord e rest savedPc) := by simp [encodeRecord]
      _ = v :: recordFields e (encodeRecord e rest savedPc) := recordFields_wordBytes e v _
      _ = v :: rest ++ [savedPc] := by rw [ih, List.cons_append]

/-- Value `i` of the register values is the reading of register `i` (R110). -/
theorem State.regValues_getElem (s : State) (i : Nat) (hi : i < s.regValues.length) :
    s.regValues[i] = s.readReg (BitVec.ofNat 5 i) := by
  simp [State.regValues, allRegs]

/-- The record of a state's registers and any saved `pc` decodes to these registers and that `pc` (R43, R44). -/
theorem decodeRecord_encodeRecord (e : SnapEndian) (s : State) (savedPc : Word) :
    decodeRecord e (encodeRecord e s.regValues savedPc) = some { s.vmState with pc := savedPc } := by
  have hlen : (encodeRecord e s.regValues savedPc).length = Config.snapBytes := by
    rw [encodeRecord_length, State.regValues_length]
    rfl
  have hreg (i : Fin 32) :
      (s.regValues ++ [savedPc]).getD i.val 0#32 = s.readReg (BitVec.ofNat 5 i.val) := by
    have hi : i.val < s.regValues.length := by simp
    rw [List.getD_append _ _ _ _ hi, List.getD_eq_getElem _ _ hi, State.regValues_getElem]
  have hpc : (s.regValues ++ [savedPc]).getD 32 0#32 = savedPc := by
    rw [List.getD_append_right _ _ _ _ (by simp)]
    simp
  simp only [decodeRecord, if_pos hlen, recordFields_encodeRecord, hreg, hpc, State.vmState]

/-- Settles O53: the saved `pc` is the state's own. -/
theorem recordRoundTrip : Obligations.RecordRoundTrip :=
  fun e s => decodeRecord_encodeRecord e s s.pc

end Sys2Proof.Machine
end

section
/-! PROOFS. The binary level (spec/30_encoding.md R60 to R65): the rows of the opcode map exclude each other, reserved
words are skips, and `encode` is inverse to `decode_word`. -/

namespace Sys2Proof
open Machine Laws

/-! ### What a row fixes in a word that it admits -/

/-- A piece of a word that a row's mask covers is the row's own (R62). -/
theorem OpcodeRow.extractLsb'_of_admits {r : OpcodeRow} {w : InstrWord} {i n : Nat} (hw : r.admits w = true)
    (hm : r.mask.extractLsb' i n = BitVec.allOnes n) : w.extractLsb' i n = r.matchBits.extractLsb' i n := by
  have heq : w &&& r.mask = r.matchBits := by simpa [OpcodeRow.admits_eq] using hw
  rw [← heq, BitVec.extractLsb'_and, hm, BitVec.and_allOnes]

/-- The row at place `k` of the opcode map is that of opcode `k + 1`, and its mask covers the opcode byte (R62). -/
theorem opcodeRows_opByte (k : Fin opcodeRows.length) :
    (opcodeRows.get k).mask.extractLsb' 56 8 = BitVec.allOnes 8 ∧
      ((opcodeRows.get k).matchBits.extractLsb' 56 8).toNat = k.val + 1 := by
  revert k
  decide

theorem opByte_of_admits {k : Fin opcodeRows.length} {w : InstrWord} (hw : (opcodeRows.get k).admits w = true) :
    (w.extractLsb' 56 8).toNat = k.val + 1 := by
  obtain ⟨hmask, hop⟩ := opcodeRows_opByte k
  rw [OpcodeRow.extractLsb'_of_admits hw hmask, hop]

/-- Settles O3: both rows are the one of the word's opcode byte. -/
theorem opcodeRowsExclusive : Obligations.OpcodeRowsExclusive := by
  intro w j k hj hk
  have hop := (opByte_of_admits hj).symm.trans (opByte_of_admits hk)
  exact Fin.ext (Nat.succ.inj hop)

/-! ### `decode_word` by rows -/

/-- A word found in the opcode map is found at a row that admits it. -/
theorem exists_row_of_find {r : OpcodeRow} {w : InstrWord} (hf : opcodeRows.find? (fun r => r.admits w) = some r) :
    ∃ k : Fin opcodeRows.length, opcodeRows.get k = r ∧ r.admits w = true := by
  obtain ⟨k, hk⟩ := List.mem_iff_get.mp (List.mem_of_find?_eq_some hf)
  exact ⟨k, hk, List.find?_some (p := fun r : OpcodeRow => r.admits w) hf⟩

/-- The row that admits a word says what the word decodes to (R63). -/
theorem decodeWord_of_admits {r : OpcodeRow} {w : InstrWord} (hr : r ∈ opcodeRows) (hw : r.admits w = true) :
    decodeWord w = r.build w := by
  cases hf : opcodeRows.find? (·.admits w) with
  | none => exact absurd hw (List.find?_eq_none.mp hf r hr)
  | some r' =>
    obtain ⟨j, rfl⟩ := List.mem_iff_get.mp hr
    obtain ⟨k, rfl, hk⟩ := exists_row_of_find hf
    obtain rfl := opcodeRowsExclusive w j k hw hk
    simp only [decodeWord, hf]

/-- A word that is not a skip is admitted by a row of the opcode map (R64). -/
theorem exists_row_of_decodeWord_ne_skip {w : InstrWord} (hne : decodeWord w ≠ .skip) :
    ∃ k : Fin opcodeRows.length, (opcodeRows.get k).admits w = true := by
  cases hf : opcodeRows.find? (·.admits w) with
  | none => exact absurd (by simp only [decodeWord, hf]) hne
  | some r =>
    obtain ⟨k, rfl, hk⟩ := exists_row_of_find hf
    exact ⟨k, hk⟩

/-! ### Reserved words -/

/-- Whether a row requires the `n` bits from bit `i` on to be zero. -/
def OpcodeRow.fixesZero (r : OpcodeRow) (i n : Nat) : Bool :=
  r.mask.extractLsb' i n == BitVec.allOnes n && r.matchBits.extractLsb' i n == 0#n

theorem OpcodeRow.extractLsb'_eq_zero {r : OpcodeRow} {w : InstrWord} {i n : Nat} (hw : r.admits w = true)
    (hz : r.fixesZero i n = true) : w.extractLsb' i n = 0#n := by
  obtain ⟨hmask, hmatch⟩ : r.mask.extractLsb' i n = BitVec.allOnes n ∧ r.matchBits.extractLsb' i n = 0#n := by
    simpa only [fixesZero, Bool.and_eq_true, beq_iff_eq] using hz
  rw [extractLsb'_of_admits hw hmask, hmatch]

/-- The must-be-zero bits of R61, by opcode: formats R, I, L, Z and T. -/
theorem opcodeRows_fixZero (k : Fin opcodeRows.length) :
    (k.val + 1 ∈ [0x02, 0x03, 0x05, 0x06, 0x07, 0x09] →
      (opcodeRows.get k).fixesZero 53 3 ∧ (opcodeRows.get k).fixesZero 45 3 ∧
        (opcodeRows.get k).fixesZero 37 3 ∧ (opcodeRows.get k).fixesZero 0 32) ∧
    (k.val + 1 ∈ [0x04, 0x08, 0x0A, 0x0B, 0x0E] →
      (opcodeRows.get k).fixesZero 53 3 ∧ (opcodeRows.get k).fixesZero 45 3 ∧ (opcodeRows.get k).fixesZero 32 8) ∧
    (k.val + 1 = 0x01 → (opcodeRows.get k).fixesZero 53 3 ∧ (opcodeRows.get k).fixesZero 32 16) ∧
    (k.val + 1 = 0x0C → (opcodeRows.get k).fixesZero 0 56) ∧
    (k.val + 1 = 0x0D → (opcodeRows.get k).fixesZero 32 24) := by
  revert k
  decide

/-- The skip completes and does nothing but record its outcome (R64, R112). -/
theorem exec_skip_spec (s : State) : ∃ t, exec .skip s = .next t ∧ SkipsOnly s t := skipInstr_spec s

/-- Settles O4: were such a word not a skip, a row would admit it, which fixes its opcode and zeros the bits. -/
theorem reservedWordsAreSkips : Obligations.ReservedWordsAreSkips := by
  intro w op hop hres
  have hskip : decodeWord w = .skip := by
    by_contra hne
    obtain ⟨k, hk⟩ := exists_row_of_decodeWord_ne_skip hne
    have hzero {i n : Nat} := OpcodeRow.extractLsb'_eq_zero (i := i) (n := n) hk
    obtain ⟨hR, hI, hL, hZ, hT⟩ := opcodeRows_fixZero k
    rw [opByte_of_admits hk] at hop
    subst hop
    have hlt : k.val < 14 := k.isLt
    rcases hres with h | h | ⟨hm, hb⟩ | ⟨hm, hb⟩ | ⟨hm, hb⟩ | ⟨hm, hb⟩ | ⟨hm, hb⟩
    · exact Nat.succ_ne_zero _ h
    · omega
    · obtain ⟨h1, h2, h3, h4⟩ := hR hm
      simp [hzero h1, hzero h2, hzero h3, hzero h4] at hb
    · obtain ⟨h1, h2, h3⟩ := hI hm
      simp [hzero h1, hzero h2, hzero h3] at hb
    · obtain ⟨h1, h2⟩ := hL hm
      simp [hzero h1, hzero h2] at hb
    · exact hb (hzero (hZ hm))
    · exact hb (hzero (hT hm))
  exact ⟨hskip, hskip ▸ exec_skip_spec⟩

/-- Settles O1, by evaluation. -/
theorem sampleWordsDecode : Obligations.SampleWordsDecode := by
  unfold Obligations.SampleWordsDecode
  decide

/-! ### The fields `encode` places -/

/-- Concatenation by place value. -/
theorem toNat_append_eq {m n : Nat} (x : BitVec m) (y : BitVec n) :
    (x ++ y).toNat = x.toNat * 2 ^ n + y.toNat := by
  rw [BitVec.toNat_append, ← Nat.shiftLeft_add_eq_or_of_lt y.isLt, Nat.shiftLeft_eq]

/-- The word `encode` builds has its fields at the places of R60. -/
theorem packWord_eq_fieldsWord (op : Byte) (rd rs rt : RegIdx) (imm : Word) :
    packWord op rd rs rt imm = fieldsWord op.toNat rd.toNat rs.toNat rt.toNat imm.toNat := by
  have hlt := (packWord op rd rs rt imm).isLt
  have hval : (packWord op rd rs rt imm).toNat =
      op.toNat * 2 ^ 56 + rd.toNat * 2 ^ 48 + rs.toNat * 2 ^ 40 + rt.toNat * 2 ^ 32 + imm.toNat := by
    simp only [packWord, layoutWord_eq, toNat_append_eq, BitVec.toNat_ofNat]
    omega
  rw [fieldsWord, ← hval, BitVec.ofNat_toNat, BitVec.setWidth_eq]

/-! ### `encode` after `decode_word`, by format -/

/-- A row of format R (R61). -/
def rowR (op : Byte) (mk : RegIdx → RegIdx → RegIdx → Instr) : OpcodeRow :=
  ⟨op ++ 0#56, 0xFFE0E0E0FFFFFFFF#64, fun w => mk (fieldRd w) (fieldRs w) (fieldRt w)⟩

/-- A row of format I (R61). -/
def rowI (op : Byte) (mk : RegIdx → RegIdx → Word → Instr) : OpcodeRow :=
  ⟨op ++ 0#56, 0xFFE0E0FF00000000#64, fun w => mk (fieldRd w) (fieldRs w) (fieldImm w)⟩

/-- A row of format L (R61). -/
def rowL (op : Byte) (mk : RegIdx → Word → Instr) : OpcodeRow :=
  ⟨op ++ 0#56, 0xFFE0FFFF00000000#64, fun w => mk (fieldRd w) (fieldImm w)⟩

/-- A row of format Z (R61). -/
def rowZ (op : Byte) (i : Instr) : OpcodeRow := ⟨op ++ 0#56, 0xFFFFFFFFFFFFFFFF#64, fun _ => i⟩

/-- A row of format T (R61). -/
def rowT (op : Byte) (mk : Word → Instr) : OpcodeRow :=
  ⟨op ++ 0#56, 0xFFFFFFFF00000000#64, fun w => mk (fieldImm w)⟩

/-- The opcode map, each row by its format (R62). -/
theorem opcodeRows_eq_formats :
    opcodeRows =
      [rowL 0x01#8 .li, rowR 0x02#8 .add, rowR 0x03#8 .sub, rowI 0x04#8 .addi, rowR 0x05#8 .mul, rowR 0x06#8 .and,
        rowR 0x07#8 .or, rowI 0x08#8 .ori, rowR 0x09#8 .xor, rowI 0x0A#8 .sll, rowI 0x0B#8 .srl, rowZ 0x0C#8 .dump,
        rowT 0x0D#8 fun t => .snapshot (.tag t), rowI 0x0E#8 .orl] := rfl

/-- Every word that the row admits is the encoding of what the row reads from it. -/
def OpcodeRow.EncodesBack (r : OpcodeRow) : Prop := ∀ w, r.admits w = true → encode (r.build w) = some w

theorem rowR_encodesBack {op : Byte} {mk : RegIdx → RegIdx → RegIdx → Instr}
    (hmk : ∀ rd rs rt, encode (mk rd rs rt) = some (packWord op rd rs rt 0#32)) : (rowR op mk).EncodesBack := by
  intro w hw
  rw [wideWord_surj w] at hw ⊢
  obtain ⟨hop, hd, hs, ht, himm⟩ := of_decide_eq_true (((OpcodeRow.admits_eq _ _).trans (admitsR ..)).symm.trans hw)
  simp [rowR, hmk, packWord_eq_wide, hop, hd, hs, ht, himm]

theorem rowI_encodesBack {op : Byte} {mk : RegIdx → RegIdx → Word → Instr}
    (hmk : ∀ rd rs imm, encode (mk rd rs imm) = some (packWord op rd rs 0#5 imm)) : (rowI op mk).EncodesBack := by
  intro w hw
  rw [wideWord_surj w] at hw ⊢
  obtain ⟨hop, hd, hs, ht, hrt⟩ := of_decide_eq_true (((OpcodeRow.admits_eq _ _).trans (admitsI ..)).symm.trans hw)
  simp [rowI, hmk, packWord_eq_wide, hop, hd, hs, ht, hrt]

theorem rowL_encodesBack {op : Byte} {mk : RegIdx → Word → Instr}
    (hmk : ∀ rd imm, encode (mk rd imm) = some (packWord op rd 0#5 0#5 imm)) : (rowL op mk).EncodesBack := by
  intro w hw
  rw [wideWord_surj w] at hw ⊢
  obtain ⟨hop, hd, hs, hrs, ht, hrt⟩ :=
    of_decide_eq_true (((OpcodeRow.admits_eq _ _).trans (admitsL ..)).symm.trans hw)
  simp [rowL, hmk, packWord_eq_wide, hop, hd, hs, hrs, ht, hrt]

theorem rowZ_encodesBack {op : Byte} {i : Instr} (hi : encode i = some (packWord op 0#5 0#5 0#5 0#32)) :
    (rowZ op i).EncodesBack := by
  intro w hw
  rw [wideWord_surj w] at hw ⊢
  obtain ⟨hop, hd, hrd, hs, hrs, ht, hrt, himm⟩ :=
    of_decide_eq_true (((OpcodeRow.admits_eq _ _).trans (admitsZ ..)).symm.trans hw)
  simp [rowZ, hi, packWord_eq_wide, hop, hd, hrd, hs, hrs, ht, hrt, himm]

theorem rowT_encodesBack {op : Byte} {mk : Word → Instr}
    (hmk : ∀ t, encode (mk t) = some (packWord op 0#5 0#5 0#5 t)) : (rowT op mk).EncodesBack := by
  intro w hw
  rw [wideWord_surj w] at hw ⊢
  obtain ⟨hop, hd, hrd, hs, hrs, ht, hrt⟩ :=
    of_decide_eq_true (((OpcodeRow.admits_eq _ _).trans (admitsT ..)).symm.trans hw)
  simp [rowT, hmk, packWord_eq_wide, hop, hd, hrd, hs, hrs, ht, hrt]

/-- The row of an instruction and `encode` agree on its format and its opcode (R62, R65). -/
theorem opcodeRows_encodeBack : ∀ r ∈ opcodeRows, r.EncodesBack := by
  simp only [opcodeRows_eq_formats, List.forall_mem_cons]
  exact ⟨rowL_encodesBack fun _ _ => rfl, rowR_encodesBack fun _ _ _ => rfl, rowR_encodesBack fun _ _ _ => rfl,
    rowI_encodesBack fun _ _ _ => rfl, rowR_encodesBack fun _ _ _ => rfl, rowR_encodesBack fun _ _ _ => rfl,
    rowR_encodesBack fun _ _ _ => rfl, rowI_encodesBack fun _ _ _ => rfl, rowR_encodesBack fun _ _ _ => rfl,
    rowI_encodesBack fun _ _ _ => rfl, rowI_encodesBack fun _ _ _ => rfl, rowZ_encodesBack rfl,
    rowT_encodesBack fun _ => rfl, rowI_encodesBack fun _ _ _ => rfl, nofun⟩

/-- A word that is not a skip is the encoding of what it decodes to (R65). -/
theorem encode_decodeWord {w : InstrWord} (hne : decodeWord w ≠ .skip) : encode (decodeWord w) = some w := by
  obtain ⟨k, hk⟩ := exists_row_of_decodeWord_ne_skip hne
  have hmem := List.get_mem opcodeRows k
  rw [decodeWord_of_admits hmem hk]
  exact opcodeRows_encodeBack _ hmem w hk

/-! ### `decode_word` after `encode` -/

/-- The word of every instruction is admitted by the instruction's row (R62, R65). -/
theorem encodeAdmitted (i : Instr) : EncodeAdmitted.Statement i := by
  cases i with
  | li rd imm => exact EncodeAdmitted.li rd imm
  | add rd rs rt => exact EncodeAdmitted.add rd rs rt
  | sub rd rs rt => exact EncodeAdmitted.sub rd rs rt
  | addi rd rs imm => exact EncodeAdmitted.addi rd rs imm
  | mul rd rs rt => exact EncodeAdmitted.mul rd rs rt
  | and rd rs rt => exact EncodeAdmitted.and rd rs rt
  | or rd rs rt => exact EncodeAdmitted.or rd rs rt
  | ori rd rs imm => exact EncodeAdmitted.ori rd rs imm
  | xor rd rs rt => exact EncodeAdmitted.xor rd rs rt
  | sll rd rs imm => exact EncodeAdmitted.sll rd rs imm
  | srl rd rs imm => exact EncodeAdmitted.srl rd rs imm
  | dump => exact EncodeAdmitted.dump
  | snapshot name => exact EncodeAdmitted.snapshot name
  | orl rd rs imm => exact EncodeAdmitted.orl rd rs imm
  | skip => exact EncodeAdmitted.skip

theorem decodeWord_skipWord : decodeWord skipWord = .skip := by decide

/-- The word of an instruction decodes to the instruction (R65). -/
theorem decodeWord_of_encode {i : Instr} {w : InstrWord} (hw : encode i = some w) : decodeWord w = i := by
  by_cases hi : i = .skip
  · subst hi
    cases hw
    exact decodeWord_skipWord
  · obtain ⟨r, hr, hadmits, hbuild⟩ := encodeAdmitted i w hw hi
    rw [decodeWord_of_admits hr hadmits, hbuild]

/-- Only a `SNAPSHOT` with a filename has no word (R65, R68). -/
theorem exists_encode_of_wellFormed {i : Instr} (hi : i.wellFormed = true) : ∃ w, encode i = some w := by
  cases i with
  | snapshot name =>
    cases name with
    | tag t => exact ⟨_, rfl⟩
    | file f => exact absurd hi (by simp [Instr.wellFormed])
  | _ => exact ⟨_, rfl⟩

/-- Settles O2: the fields by place value, the first inverse law by the row that admits an instruction's word, the
second by the format of the row that admits a word. -/
theorem encodeDecodeInverse : Obligations.EncodeDecodeInverse := by
  refine ⟨fun rd rs rt imm => ?_, fun i hi => ?_, fun w => encode_decodeWord⟩
  · have hpack (op : Byte) (rd rs rt : RegIdx) (imm : Word) :=
      congrArg some (packWord_eq_fieldsWord op rd rs rt imm)
    exact ⟨hpack _ _ _ _ _, hpack _ _ _ _ _, hpack _ _ _ _ _, hpack _ _ _ _ _, hpack _ _ _ _ _, hpack _ _ _ _ _,
      hpack _ _ _ _ _, hpack _ _ _ _ _, hpack _ _ _ _ _, hpack _ _ _ _ _, hpack _ _ _ _ _, hpack _ _ _ _ _,
      hpack _ _ _ _ _, hpack _ _ _ _ _, rfl⟩
  · obtain ⟨w, hw⟩ := exists_encode_of_wellFormed hi
    exact ⟨w, hw, decodeWord_of_encode hw⟩

/-- Settles O33: `exec` follows the control table under the configured policies, which are the spec's defaults. -/
theorem executeMatchesControlTable : Obligations.ExecuteMatchesControlTable := exec_eq_runControl

end Sys2Proof
end

section
/-! PROOFS. The assembler (spec/30_encoding.md R66 to R68): a word decodes to what its text decodes to, every name of a
program has a tag that stands for it, and the assembled program simulates the text program. -/

namespace Sys2Proof.Machine

/-! ### One instruction -/

/-- With its name replaced by a tag, every Decoded record has a word (R66, R68). -/
theorem withTag_wellFormed (names : List Token) (i : Instr) : (i.withTag names).wellFormed = true := by
  cases i with
  | snapshot name => cases name <;> rfl
  | _ => rfl

/-- Settles O10: the record with its tag has a word, and that word decodes to it. -/
theorem assembledWordDecodesAsText : Obligations.AssembledWordDecodesAsText := by
  intro names t
  obtain ⟨w, hw⟩ := exists_encode_of_wellFormed (withTag_wellFormed names (decodeText t))
  have hasm : assemble names t = w := by rw [assemble, hw, Option.getD_some]
  rw [hasm, decodeWord_of_encode hw]

/-! ### The table of names -/

/-- The names seen so far, after one more instruction (R68). -/
def seeInstr (seen : List Token) (t : TextInstr) : List Token :=
  match snapshotFile t with
  | some name => if seen.contains name then seen else seen ++ [name]
  | none => seen

theorem nameTableFrom_cons (seen : List Token) (t : TextInstr) (rest : List TextInstr) :
    nameTableFrom seen (t :: rest) = nameTableFrom (seeInstr seen t) rest := by
  cases h : snapshotFile t <;> simp [nameTableFrom, seeInstr, h]

theorem subset_seeInstr (seen : List Token) (t : TextInstr) : seen ⊆ seeInstr seen t := by
  unfold seeInstr
  split
  · split
    · exact List.Subset.refl _
    · exact List.subset_append_left _ _
  · exact List.Subset.refl _

theorem mem_seeInstr (seen : List Token) {t : TextInstr} {name : Token} (h : snapshotFile t = some name) :
    name ∈ seeInstr seen t := by
  by_cases hc : name ∈ seen
  · simp [seeInstr, h, hc]
  · simp [seeInstr, h, hc]

theorem seeInstr_length_le (seen : List Token) (t : TextInstr) : (seeInstr seen t).length ≤ seen.length + 1 := by
  unfold seeInstr
  split
  · split
    · exact Nat.le_succ _
    · exact Nat.le_of_eq List.length_append
  · exact Nat.le_succ _

/-- A name once seen stays in the table. -/
theorem subset_nameTableFrom (seen : List Token) (ts : List TextInstr) : seen ⊆ nameTableFrom seen ts := by
  induction ts generalizing seen with
  | nil => exact List.Subset.refl _
  | cons t rest ih =>
    rw [nameTableFrom_cons]
    exact List.Subset.trans (subset_seeInstr seen t) (ih _)

/-- The name of every `SNAPSHOT` is in the table (R68). -/
theorem mem_nameTableFrom (seen : List Token) {ts : List TextInstr} {t : TextInstr} {name : Token} (ht : t ∈ ts)
    (h : snapshotFile t = some name) : name ∈ nameTableFrom seen ts := by
  induction ts generalizing seen with
  | nil => exact absurd ht List.not_mem_nil
  | cons t' rest ih =>
    rw [nameTableFrom_cons]
    obtain rfl | ht := List.mem_cons.mp ht
    · exact subset_nameTableFrom _ rest (mem_seeInstr seen h)
    · exact ih _ ht

/-- Each instruction brings at most one name (R68). -/
theorem nameTableFrom_length_le (seen : List Token) (ts : List TextInstr) :
    (nameTableFrom seen ts).length ≤ seen.length + ts.length := by
  induction ts generalizing seen with
  | nil => exact Nat.le_refl _
  | cons t rest ih =>
    calc (nameTableFrom seen (t :: rest)).length
      _ = (nameTableFrom (seeInstr seen t) rest).length := by rw [nameTableFrom_cons]
      _ ≤ (seeInstr seen t).length + rest.length := ih _
      _ ≤ seen.length + (t :: rest).length := by
        have := seeInstr_length_le seen t
        simp only [List.length_cons]
        omega

/-- In a table that tags can index, the tag of a name of the table stands for the name (R68). -/
theorem resolveName_tagOf {names : List Token} {name : Token} (hmem : name ∈ names)
    (hlen : names.length ≤ Config.lenMax) : resolveName names (.tag (tagOf names name)) = some name := by
  have hlt : names.idxOf name < names.length := List.idxOf_lt_length_iff.mpr hmem
  have htag : (tagOf names name).toNat = names.idxOf name := by
    rw [tagOf, BitVec.toNat_ofNat]
    exact Nat.mod_eq_of_lt (Nat.lt_of_lt_of_le hlt (Nat.le_succ_of_le hlen))
  simp [resolveName, htag, List.getElem?_eq_getElem hlt]

/-- Settles O12: the table holds the name and is no longer than the program. -/
theorem tagsStandForNames : Obligations.TagsStandForNames := by
  intro ts t name hlen ht hname
  refine resolveName_tagOf (mem_nameTableFrom [] ht hname) (le_trans ?_ hlen)
  simpa [nameTable] using nameTableFrom_length_le [] ts

/-! ### The assembled program runs through the same states -/

/-- A row of the control table with the filename of its event replaced by the tag (R67). -/
def Control.withTag (names : List Token) (c : Control) : Control :=
  match c with
  | .emitCheckpoint (.file name) => .emitCheckpoint (.tag (tagOf names name))
  | other => other

theorem controlOf_withTag (names : List Token) (i : Instr) :
    controlOf (i.withTag names) = (controlOf i).withTag names := by
  cases i with
  | snapshot name => cases name <;> rfl
  | _ => rfl

section
variable (ts : List TextInstr) (s : State)

@[simp] theorem operandA_assembled (a : Option RegIdx) : operandA a (s.assembled ts) = operandA a s := by
  cases a <;> rfl

@[simp] theorem operandB_assembled (b : BSelect) : operandB b (s.assembled ts) = operandB b s := by
  cases b <;> rfl

theorem emit_assembled (e : Event) :
    (s.assembled ts).emit (e.withTag (nameTable ts)) = (s.emit e).assembled ts := by
  simp [State.emit, State.assembled]

theorem resetCore_assembled : (s.assembled ts).resetCore = s.resetCore.assembled ts := rfl

/-- Restore and start read the ports, never the program or the events (R126, R136). -/
theorem readyStep_assembled : (s.assembled ts).readyStep = s.readyStep.assembled ts := by
  cases hv : s.ports.restoreValid <;> cases hst : s.ports.start <;>
    simp [State.readyStep, State.restoreIfAsserted, State.startIfAsserted, State.assembled, State.restore,
      State.startRun, hv, hst]

/-- The execute phase with the tag for the filename: the same registers, the same event up to the tag (R67). -/
theorem runControl_assembled (p : ShamtPolicy) (e : SnapEndian) (c : Control) :
    runControl p e (c.withTag (nameTable ts)) (s.assembled ts) = (runControl p e c s).assembled ts := by
  cases c with
  | alu a =>
    simp only [Control.withTag, runControl, runAlu, operandA_assembled, operandB_assembled]
    cases alu p a.fn (operandA a.a s) (operandB a.b s) <;> rfl
  | emitDump => exact congrArg (State.withOutcome · .executed) (emit_assembled ts s (.dump s.regValues))
  | emitCheckpoint name =>
    have hemit := emit_assembled ts s (.checkpoint name (s.snapshotRecord e))
    cases name with
    | tag t => exact congrArg (State.withOutcome · .executed) hemit
    | file f => exact congrArg (State.withOutcome · .executed) hemit
  | idle => rfl

variable {ts s}

/-- The assembled program has one word per instruction (R66). -/
theorem imem_len_assembled (h : s.imem = .text ts) : (s.assembled ts).imem.len = s.imem.len := by
  simp [h, State.assembled, IMem.len, IMem.size, assembleProgram]

theorem canStep_assembled (h : s.imem = .text ts) : (s.assembled ts).canStep = s.canStep := by
  unfold State.canStep
  rw [imem_len_assembled h]
  rfl

theorem haltCheck_assembled (h : s.imem = .text ts) : (s.assembled ts).haltCheck = s.haltCheck.assembled ts := by
  unfold State.haltCheck
  rw [canStep_assembled h]
  rfl

/-- Where the text program has an instruction, the assembled one has its word, which decodes to the same record up to
the tag (R66, R67). -/
theorem entry_assembled (h : s.imem = .text ts) {i : Nat} {e : StoreEntry} (he : s.imem.entry i = some e) :
    ∃ e', (s.assembled ts).imem.entry i = some e' ∧ decodeEntry e' = (decodeEntry e).withTag (nameTable ts) := by
  rw [h] at he
  obtain ⟨t, ht, rfl⟩ := Option.map_eq_some_iff.mp he
  refine ⟨.word (assemble (nameTable ts) t), ?_, assembledWordDecodesAsText (nameTable ts) t⟩
  simp [State.assembled, IMem.entry, assembleProgram, ht]

/-- The execute phase at the two levels (R67). -/
theorem exec_assembled {i : Instr} {u : State} (hu : exec i s = .next u) :
    exec (i.withTag (nameTable ts)) (s.assembled ts) = .next (u.assembled ts) := by
  rw [exec_eq_runControl] at hu ⊢
  cases hu
  rw [controlOf_withTag, runControl_assembled]

end

/-- Settles O11: each of the five kinds of step commutes with assembling. -/
theorem assembledProgramSimulates : Obligations.AssembledProgramSimulates := by
  intro ts s t h ht
  refine ⟨(storeIsImmutable s t ht).1.trans h, ?_⟩
  obtain ⟨hr, rfl⟩ | ⟨hr, hs, rfl⟩ | ⟨hr, hs, rfl⟩ | ⟨hr, hs, hc, rfl⟩ | ⟨hr, hs, hc, e, u, he, hu, rfl⟩ :=
    step_cases ht
  case inl => rw [step_of_rst (s := s.assembled ts) hr, resetCore_assembled]
  case inr.inl => rw [step_of_ready (s := s.assembled ts) hr hs, readyStep_assembled]
  case inr.inr.inl => exact step_of_halted hr hs
  case inr.inr.inr.inl => exact step_of_bound hr hs ((canStep_assembled h).trans hc)
  case inr.inr.inr.inr =>
    obtain ⟨e', he', hdecode⟩ := entry_assembled h he
    obtain ⟨-, -, -, -, himem, -⟩ := (effect_of_exec hu).sameControl
    have hexec : exec (decodeEntry e') (s.assembled ts) = .next (u.assembled ts) := by
      rw [hdecode, exec_assembled hu]
    rw [step_of_exec (s := s.assembled ts) hr hs ((canStep_assembled h).trans hc) he' hexec]
    exact congrArg Host.Outcome.next (haltCheck_assembled (s := u.advance) (himem.trans h))

end Sys2Proof.Machine
end

section
/-! PROOFS. Operand tokens (spec/30_encoding.md R50 to R52): what the two resolvers answer for. -/

namespace Sys2Proof.Machine

/-! ### Digits -/

theorem isDigit_iff (b : Byte) : isDigit b = true ↔ 0x30 ≤ b.toNat ∧ b.toNat ≤ 0x39 := by
  simp [isDigit, BitVec.le_def]

/-- The test both resolvers make of their digits (R50, R52). -/
theorem digitString_iff (ds : List Byte) : DigitString ds ↔ (!ds.isEmpty && ds.all isDigit) = true := by
  simp [DigitString, isDigit_iff]

theorem DigitString.head {b : Byte} {ds : List Byte} (h : DigitString (b :: ds)) : 0x30 ≤ b.toNat ∧ b.toNat ≤ 0x39 :=
  h.2 b List.mem_cons_self

/-! ### Registers -/

/-- A number below 32 is the index of one register (R10). -/
theorem ofNat_eq_regIdx_iff {n : Nat} (hn : n < 32) (r : RegIdx) : BitVec.ofNat 5 n = r ↔ n = r.toNat := by
  rw [← BitVec.toNat_inj, BitVec.toNat_ofNat, Nat.mod_eq_of_lt hn]

/-- Rule 1 of R50. -/
theorem numericRegister_eq_some_iff (tok : Token) (r : RegIdx) :
    numericRegister tok = some r ↔ ∃ ds, tok = 0x24#8 :: ds ∧ DigitString ds ∧ decimalValue ds = r.toNat := by
  cases tok with
  | nil => simp [numericRegister]
  | cons dollar digits =>
    have hindex : (decimalValue digits ≤ 31 ∧ BitVec.ofNat 5 (decimalValue digits) = r) ↔
        decimalValue digits = r.toNat := by
      constructor
      · rintro ⟨hn, hr⟩
        exact (ofNat_eq_regIdx_iff (Nat.lt_succ_of_le hn) r).mp hr
      · intro hr
        have hlt : decimalValue digits < 32 := hr ▸ r.isLt
        exact ⟨Nat.le_of_lt_succ hlt, (ofNat_eq_regIdx_iff hlt r).mpr hr⟩
    simp [numericRegister, digitString_iff, ← hindex, and_assoc]

theorem registerNames_nodup : registerNames.Nodup := by decide

/-- In a list without repetition an element is found at its one position. -/
theorem findIdx?_beq_eq_some_iff {l : List Token} (hl : l.Nodup) (tok : Token) (i : Nat) :
    l.findIdx? (· == tok) = some i ↔ l[i]? = some tok := by
  rw [List.findIdx?_eq_some_iff_getElem, List.getElem?_eq_some_iff]
  constructor
  · rintro ⟨hi, htok, -⟩
    exact ⟨hi, eq_of_beq htok⟩
  · rintro ⟨hi, rfl⟩
    refine ⟨hi, beq_self_eq_true _, fun j hj hbeq => ?_⟩
    exact Nat.ne_of_lt hj (hl.getElem_inj_iff.mp (eq_of_beq hbeq))

/-- Rule 2 of R50: the name at the position of the register in the table of R12. -/
theorem symbolicRegister_eq_some_iff (tok : Token) (r : RegIdx) :
    symbolicRegister tok = some r ↔ registerNames[r.toNat]? = some tok := by
  simp only [symbolicRegister, Option.map_eq_some_iff, findIdx?_beq_eq_some_iff registerNames_nodup]
  constructor
  · rintro ⟨i, hi, hr⟩
    have hlt : i < 32 := (List.getElem?_eq_some_iff.mp hi).1
    rwa [← (ofNat_eq_regIdx_iff hlt r).mp hr]
  · intro h
    exact ⟨r.toNat, h, (ofNat_eq_regIdx_iff r.isLt r).mpr rfl⟩

/-- No name of the table of R12 is `$` and digits. -/
theorem numericRegister_registerNames : ∀ name ∈ registerNames, numericRegister name = none := by decide

/-- The two rules of R50 answer for different tokens. -/
theorem resolveRegister_eq_some_iff (tok : Token) (r : RegIdx) :
    resolveRegister tok = some r ↔ numericRegister tok = some r ∨ symbolicRegister tok = some r := by
  rw [resolveRegister, Option.or_eq_some_iff]
  refine or_congr_right (and_iff_right_of_imp fun h => ?_)
  exact numericRegister_registerNames tok (List.mem_of_getElem? ((symbolicRegister_eq_some_iff tok r).mp h))

/-- Settles O5: the table of the statement is the model's. -/
theorem registerTokensResolve : Obligations.RegisterTokensResolve := by
  intro tok r
  rw [resolveRegister_eq_some_iff, numericRegister_eq_some_iff, symbolicRegister_eq_some_iff, ← List.getElem?_map]
  rfl

/-- Every register token begins with `$` (R12, R50). -/
theorem head_of_resolveRegister {tok : Token} {r : RegIdx} (h : resolveRegister tok = some r) :
    tok.head? = some 0x24#8 := by
  have hnames : ∀ name ∈ registerNames, name.head? = some 0x24#8 := by decide
  obtain hn | hs := (resolveRegister_eq_some_iff tok r).mp h
  · obtain ⟨ds, rfl, -⟩ := (numericRegister_eq_some_iff tok r).mp hn
    rfl
  · exact hnames tok (List.mem_of_getElem? ((symbolicRegister_eq_some_iff tok r).mp hs))

/-! ### Literals -/

/-- In the signed 32-bit range `wrap32` keeps the value. -/
theorem wrap32_eq_iff {n : Int} (hlo : -2147483648 ≤ n) (hhi : n ≤ 2147483647) (v : Word) :
    wrap32 n = v ↔ v.toInt = n := by
  have htoInt : (wrap32 n).toInt = n := by
    rw [wrap32, BitVec.toInt_ofInt]
    exact Int.bmod_eq_of_le (by omega) (by omega)
  rw [← BitVec.toInt_inj, htoInt, eq_comm]

/-- The range and value test of R52, for digits with a given sign. -/
theorem signedLiteral_eq_some_iff (negative : Bool) (ds : List Byte) (v : Word) :
    signedLiteral negative ds = some v ↔
      DigitString ds ∧ -2147483648 ≤ literalValue negative ds ∧ literalValue negative ds ≤ 2147483647 ∧
        v.toInt = literalValue negative ds := by
  have hdef : signedLiteral negative ds =
      if (!ds.isEmpty && ds.all isDigit && -2147483648 ≤ literalValue negative ds &&
        literalValue negative ds ≤ 2147483647) = true then some (wrap32 (literalValue negative ds)) else none := rfl
  rw [hdef, Option.ite_none_right_eq_some, Option.some_inj, digitString_iff]
  simp only [Bool.and_eq_true, decide_eq_true_eq]
  constructor
  · rintro ⟨⟨⟨hds, hlo⟩, hhi⟩, hv⟩
    exact ⟨hds, hlo, hhi, (wrap32_eq_iff hlo hhi v).mp hv⟩
  · rintro ⟨hds, hlo, hhi, hv⟩
    exact ⟨⟨⟨hds, hlo⟩, hhi⟩, (wrap32_eq_iff hlo hhi v).mpr hv⟩

/-- Digits without a sign are a literal: a digit is neither sign. -/
theorem resolveImmediate_of_digits {ds : List Byte} (hds : DigitString ds) :
    resolveImmediate ds = signedLiteral false ds := by
  cases ds with
  | nil => exact absurd rfl hds.1
  | cons b rest =>
    obtain ⟨hlo, -⟩ := hds.head
    have hminus : b ≠ 0x2D#8 := by rintro rfl; simp at hlo
    have hplus : b ≠ 0x2B#8 := by rintro rfl; simp at hlo
    simp [resolveImmediate, hminus, hplus]

/-- Settles O6: one sign, if any, is taken off, and the rest goes through the test for digits and range. -/
theorem literalTokensResolve : Obligations.LiteralTokensResolve := by
  intro tok v
  simp only [← signedLiteral_eq_some_iff]
  constructor
  · intro h
    cases tok with
    | nil => simp [resolveImmediate] at h
    | cons c rest =>
      simp only [resolveImmediate] at h
      split at h
      next hc => exact ⟨true, rest, .inr (.inr ⟨rfl, by rw [eq_of_beq hc]⟩), h⟩
      next =>
        split at h
        next hc => exact ⟨false, rest, .inr (.inl ⟨rfl, by rw [eq_of_beq hc]⟩), h⟩
        next => exact ⟨false, c :: rest, .inl ⟨rfl, rfl⟩, h⟩
  · rintro ⟨negative, ds, ⟨rfl, rfl⟩ | ⟨rfl, rfl⟩ | ⟨rfl, rfl⟩, h⟩
    · rwa [resolveImmediate_of_digits ((signedLiteral_eq_some_iff _ _ v).mp h).1]
    · exact h
    · exact h

/-- No token is both a literal and a register: a literal begins with a sign or a digit, a register with `$` (R53). -/
theorem resolveRegister_eq_none_of_literal {tok : Token} {v : Word} (h : resolveImmediate tok = some v) :
    resolveRegister tok = none := by
  rw [Option.eq_none_iff_forall_ne_some]
  intro r hr
  have hhead := head_of_resolveRegister hr
  obtain ⟨negative, ds, ⟨-, rfl⟩ | ⟨-, rfl⟩ | ⟨-, rfl⟩, hds, -⟩ := (literalTokensResolve tok v).mp h
  · cases tok with
    | nil => simp at hhead
    | cons b rest =>
      obtain ⟨hlo, -⟩ := hds.head
      cases hhead
      simp at hlo
  · simp at hhead
  · simp at hhead

end Sys2Proof.Machine
end

section
/-! PROOFS. The text decoder (spec/30_encoding.md R48 to R57): what each mnemonic and its operands decode to, and what
is a skip. -/

namespace Sys2Proof.Machine

/-! ### Mnemonics -/

/-- The spelling of a mnemonic in the table of R49. -/
def spelling (mn : Mnemonic) : Token :=
  match mn with
  | .li => ascii "li"
  | .add => ascii "add"
  | .sub => ascii "sub"
  | .addi => ascii "addi"
  | .mul => ascii "mul"
  | .and => ascii "and"
  | .or => ascii "or"
  | .ori => ascii "ori"
  | .xor => ascii "xor"
  | .sll => ascii "sll"
  | .srl => ascii "srl"
  | .dumpProcessorState => ascii "DUMP_PROCESSOR_STATE"
  | .snapshot => ascii "SNAPSHOT"

theorem mnemonicTable_spelling : ∀ row ∈ mnemonicTable, row.1 = spelling row.2 := by decide

/-- A mnemonic token is resolved exactly where it is spelled as in the table (R48, D7). -/
theorem resolveMnemonic_eq_some_iff (tok : Token) (mn : Mnemonic) :
    resolveMnemonic Config.mnemonicCase tok = some mn ↔ tok = spelling mn := by
  constructor
  · intro h
    obtain ⟨row, hfind, rfl⟩ := Option.map_eq_some_iff.mp h
    have hname : row.1 = tok := eq_of_beq
      (List.find?_some (p := fun row : Token × Mnemonic => mnemonicMatches .exact row.1 tok) hfind)
    rw [← hname]
    exact mnemonicTable_spelling row (List.mem_of_find?_eq_some hfind)
  · rintro rfl
    cases mn <;> decide

/-- A recognized mnemonic leaves it to the operands (R55). -/
theorem decodeText_spelling (mn : Mnemonic) (ops : List Token) :
    decodeText ⟨spelling mn, ops⟩ = decodeOperands mn ops := by
  simp only [decodeText, decodeTextWith, (resolveMnemonic_eq_some_iff _ mn).mpr rfl]

/-- A text that is not a skip has a recognized mnemonic (R57). -/
theorem decodeText_ne_skip {t : TextInstr} (h : decodeText t ≠ .skip) :
    ∃ mn, t.mnemonic = spelling mn ∧ decodeOperands mn t.operands ≠ .skip := by
  cases hmn : resolveMnemonic Config.mnemonicCase t.mnemonic with
  | none => exact absurd (by simp only [decodeText, decodeTextWith, hmn]) h
  | some mn =>
    refine ⟨mn, (resolveMnemonic_eq_some_iff _ mn).mp hmn, ?_⟩
    simpa only [decodeText, decodeTextWith, hmn] using h

/-! ### Operands that resolve -/

section
variable {a b c : Token} {rd rs rt : RegIdx} {imm : Word}

theorem decodeRegLit_of_resolve (mk : RegIdx → Word → Instr) (ha : resolveRegister a = some rd)
    (hc : resolveImmediate c = some imm) : decodeRegLit mk [a, c] = mk rd imm := by
  simp only [decodeRegLit, ha, hc]

theorem decodeRegRegReg_of_resolve (mk : RegIdx → RegIdx → RegIdx → Instr) (ha : resolveRegister a = some rd)
    (hb : resolveRegister b = some rs) (hc : resolveRegister c = some rt) :
    decodeRegRegReg mk [a, b, c] = mk rd rs rt := by
  simp only [decodeRegRegReg, ha, hb, hc]

theorem decodeRegRegLit_of_resolve (mk : RegIdx → RegIdx → Word → Instr) (ha : resolveRegister a = some rd)
    (hb : resolveRegister b = some rs) (hc : resolveImmediate c = some imm) :
    decodeRegRegLit mk [a, b, c] = mk rd rs imm := by
  simp only [decodeRegRegLit, ha, hb, hc]

end

/-- Settles O8: the mnemonic is looked up, then its operands resolve. -/
theorem resolvedTextDecodes : Obligations.ResolvedTextDecodes := by
  intro a b c name rd rs rt imm ha hb
  refine ⟨fun hc => ⟨?li, ?addi, ?ori, ?sll, ?srl⟩, fun hc => ⟨?add, ?sub, ?mul, ?and, ?xor⟩, ?dump, ?snapshot⟩
  case li => exact (decodeText_spelling .li _).trans (decodeRegLit_of_resolve _ ha hc)
  case addi => exact (decodeText_spelling .addi _).trans (decodeRegRegLit_of_resolve _ ha hb hc)
  case ori => exact (decodeText_spelling .ori _).trans (decodeRegRegLit_of_resolve _ ha hb hc)
  case sll => exact (decodeText_spelling .sll _).trans (decodeRegRegLit_of_resolve _ ha hb hc)
  case srl => exact (decodeText_spelling .srl _).trans (decodeRegRegLit_of_resolve _ ha hb hc)
  case add => exact (decodeText_spelling .add _).trans (decodeRegRegReg_of_resolve _ ha hb hc)
  case sub => exact (decodeText_spelling .sub _).trans (decodeRegRegReg_of_resolve _ ha hb hc)
  case mul => exact (decodeText_spelling .mul _).trans (decodeRegRegReg_of_resolve _ ha hb hc)
  case and => exact (decodeText_spelling .and _).trans (decodeRegRegReg_of_resolve _ ha hb hc)
  case xor => exact (decodeText_spelling .xor _).trans (decodeRegRegReg_of_resolve _ ha hb hc)
  case dump => exact decodeText_spelling .dumpProcessorState []
  case snapshot => exact decodeText_spelling .snapshot [name]

/-! ### Operands of a text that is not a skip (R55) -/

theorem decodeRegLit_ne_skip {mk : RegIdx → Word → Instr} {ops : List Token} (h : decodeRegLit mk ops ≠ .skip) :
    ∃ a c, ops = [a, c] ∧ (resolveRegister a).isSome ∧ (resolveImmediate c).isSome := by
  unfold decodeRegLit at h
  split at h
  next a c =>
    split at h
    next ha hc => exact ⟨a, c, rfl, by simp [ha], by simp [hc]⟩
    next => exact absurd rfl h
  next => exact absurd rfl h

theorem decodeRegRegReg_ne_skip {mk : RegIdx → RegIdx → RegIdx → Instr} {ops : List Token}
    (h : decodeRegRegReg mk ops ≠ .skip) :
    ∃ a b c, ops = [a, b, c] ∧ (resolveRegister a).isSome ∧ (resolveRegister b).isSome ∧
      (resolveRegister c).isSome := by
  unfold decodeRegRegReg at h
  split at h
  next a b c =>
    split at h
    next ha hb hc => exact ⟨a, b, c, rfl, by simp [ha], by simp [hb], by simp [hc]⟩
    next => exact absurd rfl h
  next => exact absurd rfl h

theorem decodeRegRegLit_ne_skip {mk : RegIdx → RegIdx → Word → Instr} {ops : List Token}
    (h : decodeRegRegLit mk ops ≠ .skip) :
    ∃ a b c, ops = [a, b, c] ∧ (resolveRegister a).isSome ∧ (resolveRegister b).isSome ∧
      (resolveImmediate c).isSome := by
  unfold decodeRegRegLit at h
  split at h
  next a b c =>
    split at h
    next ha hb hc => exact ⟨a, b, c, rfl, by simp [ha], by simp [hb], by simp [hc]⟩
    next => exact absurd rfl h
  next => exact absurd rfl h

theorem decodeOr_ne_skip {ops : List Token} (h : decodeOr ops ≠ .skip) :
    ∃ a b c, ops = [a, b, c] ∧ (resolveRegister a).isSome ∧ (resolveRegister b).isSome ∧
      ((resolveRegister c).isSome ∨ (resolveImmediate c).isSome) := by
  unfold decodeOr at h
  split at h
  next a b c =>
    split at h
    next ha hb =>
      refine ⟨a, b, c, rfl, by simp [ha], by simp [hb], ?_⟩
      split at h
      next hc => exact .inl (by simp [hc])
      next =>
        split at h
        next hc => exact .inr (by simp [hc])
        next => exact absurd rfl h
    next => exact absurd rfl h
  next => exact absurd rfl h

theorem decodeDump_ne_skip {ops : List Token} (h : decodeDump ops ≠ .skip) : ops = [] := by
  cases ops with
  | nil => rfl
  | cons _ _ => exact absurd rfl h

theorem decodeSnapshot_ne_skip {ops : List Token} (h : decodeSnapshot ops ≠ .skip) : ∃ name, ops = [name] := by
  unfold decodeSnapshot at h
  split at h
  next name => exact ⟨name, rfl⟩
  next => exact absurd rfl h

/-- Settles O9: the mnemonic is one of the 13, and its operand decoder says what the operands are. -/
theorem malformedTextSkips : Obligations.MalformedTextSkips := by
  intro t hne
  obtain ⟨mn, hmn, h⟩ := decodeText_ne_skip hne
  cases mn with
  | li => exact .inl ⟨hmn, decodeRegLit_ne_skip h⟩
  | add => exact .inr (.inl ⟨⟨"add", by simp, hmn⟩, decodeRegRegReg_ne_skip h⟩)
  | sub => exact .inr (.inl ⟨⟨"sub", by simp, hmn⟩, decodeRegRegReg_ne_skip h⟩)
  | addi => exact .inr (.inr (.inl ⟨⟨"addi", by simp, hmn⟩, decodeRegRegLit_ne_skip h⟩))
  | mul => exact .inr (.inl ⟨⟨"mul", by simp, hmn⟩, decodeRegRegReg_ne_skip h⟩)
  | and => exact .inr (.inl ⟨⟨"and", by simp, hmn⟩, decodeRegRegReg_ne_skip h⟩)
  | or => exact .inr (.inr (.inr (.inl ⟨hmn, decodeOr_ne_skip h⟩)))
  | ori => exact .inr (.inr (.inl ⟨⟨"ori", by simp, hmn⟩, decodeRegRegLit_ne_skip h⟩))
  | xor => exact .inr (.inl ⟨⟨"xor", by simp, hmn⟩, decodeRegRegReg_ne_skip h⟩)
  | sll => exact .inr (.inr (.inl ⟨⟨"sll", by simp, hmn⟩, decodeRegRegLit_ne_skip h⟩))
  | srl => exact .inr (.inr (.inl ⟨⟨"srl", by simp, hmn⟩, decodeRegRegLit_ne_skip h⟩))
  | dumpProcessorState => exact .inr (.inr (.inr (.inr (.inl ⟨hmn, decodeDump_ne_skip h⟩))))
  | snapshot => exact .inr (.inr (.inr (.inr (.inr ⟨hmn, decodeSnapshot_ne_skip h⟩))))

/-! ### Registers and literals in each other's place (R53) -/

/-- A literal in a register place is a skip. -/
theorem decodeRegRegReg_of_literal (mk : RegIdx → RegIdx → RegIdx → Instr) (a b : Token) {c : Token} {imm : Word}
    (hc : resolveImmediate c = some imm) : decodeRegRegReg mk [a, b, c] = .skip := by
  by_contra h
  obtain ⟨_, _, _, ⟨⟩, -, -, hreg⟩ := decodeRegRegReg_ne_skip h
  simp [resolveRegister_eq_none_of_literal hc] at hreg

/-- A register is not a literal. -/
theorem resolveImmediate_eq_none_of_register {tok : Token} {r : RegIdx} (h : resolveRegister tok = some r) :
    resolveImmediate tok = none := by
  rw [Option.eq_none_iff_forall_ne_some]
  intro v hv
  simp [resolveRegister_eq_none_of_literal hv] at h

/-- A register in a literal place is a skip. -/
theorem decodeRegRegLit_of_register (mk : RegIdx → RegIdx → Word → Instr) (a b : Token) {c : Token} {r : RegIdx}
    (hc : resolveRegister c = some r) : decodeRegRegLit mk [a, b, c] = .skip := by
  by_contra h
  obtain ⟨_, _, _, ⟨⟩, -, -, hlit⟩ := decodeRegRegLit_ne_skip h
  simp [resolveImmediate_eq_none_of_register hc] at hlit

theorem decodeRegLit_of_register (mk : RegIdx → Word → Instr) (a : Token) {b : Token} {r : RegIdx}
    (hb : resolveRegister b = some r) : decodeRegLit mk [a, b] = .skip := by
  by_contra h
  obtain ⟨_, _, ⟨⟩, -, hlit⟩ := decodeRegLit_ne_skip h
  simp [resolveImmediate_eq_none_of_register hb] at hlit

/-- Settles O7: the third operand of `or` by cases, and the other mnemonics by the disjointness of registers and
literals. -/
theorem orOperandMultiplexer : Obligations.OrOperandMultiplexer := by
  refine ⟨fun a b c rd rs ha hb => ?_, ?_, ?_, fun a b r hb => ?_⟩
  · have hor : decodeText ⟨ascii "or", [a, b, c]⟩ = decodeOr [a, b, c] := decodeText_spelling .or _
    refine ⟨fun rt hc => ?_, fun imm hc himm => ?_, fun hc himm => ?_⟩
    · simp only [hor, decodeOr, ha, hb, hc]
    · simp only [hor, decodeOr, ha, hb, hc, himm]
    · simp only [hor, decodeOr, ha, hb, hc, himm]
  · simp only [List.forall_mem_cons]
    exact ⟨fun a b _ _ hc => (decodeText_spelling .add _).trans (decodeRegRegReg_of_literal _ a b hc),
      fun a b _ _ hc => (decodeText_spelling .sub _).trans (decodeRegRegReg_of_literal _ a b hc),
      fun a b _ _ hc => (decodeText_spelling .mul _).trans (decodeRegRegReg_of_literal _ a b hc),
      fun a b _ _ hc => (decodeText_spelling .and _).trans (decodeRegRegReg_of_literal _ a b hc),
      fun a b _ _ hc => (decodeText_spelling .xor _).trans (decodeRegRegReg_of_literal _ a b hc), nofun⟩
  · simp only [List.forall_mem_cons]
    exact ⟨fun a b _ _ hc => (decodeText_spelling .addi _).trans (decodeRegRegLit_of_register _ a b hc),
      fun a b _ _ hc => (decodeText_spelling .ori _).trans (decodeRegRegLit_of_register _ a b hc),
      fun a b _ _ hc => (decodeText_spelling .sll _).trans (decodeRegRegLit_of_register _ a b hc),
      fun a b _ _ hc => (decodeText_spelling .srl _).trans (decodeRegRegLit_of_register _ a b hc), nofun⟩
  · exact (decodeText_spelling .li _).trans (decodeRegLit_of_register _ a hb)

end Sys2Proof.Machine
end

section
/-! PROOFS. The loader (spec/30_encoding.md R45, R47): which lines hold an instruction, and what the loader guarantees of
the instruction it makes. -/

namespace Sys2Proof.Machine

/-! ### Trimming -/

theorem trimSpace_isPrefix (line : List Byte) : trimSpace line <+: line.dropWhile isSpace := by
  have hsuffix := List.dropWhile_suffix (l := (line.dropWhile isSpace).reverse) isSpace
  simpa [trimSpace] using hsuffix.reverse

theorem trimSpace_subset (line : List Byte) : trimSpace line ⊆ line :=
  List.Subset.trans (trimSpace_isPrefix line).subset (List.dropWhile_suffix isSpace).subset

/-- What is left after dropping white space does not begin with white space. -/
theorem head?_dropWhile_isSpace (line : List Byte) : (line.dropWhile isSpace).head?.any isSpace = false := by
  have hhead := List.head?_dropWhile_not isSpace line
  cases h : (line.dropWhile isSpace).head? with
  | none => rfl
  | some b => simpa [h] using hhead

theorem head?_any_of_isPrefix {p : Byte → Bool} {l m : List Byte} (hl : l <+: m) (hm : m.head?.any p = false) :
    l.head?.any p = false := by
  obtain ⟨rest, rfl⟩ := hl
  cases l with
  | nil => rfl
  | cons b l => exact hm

/-- A trimmed text has no white space at either end (R45, R47). -/
theorem trimSpace_trimmed (line : List Byte) : Token.trimmed (trimSpace line) = true := by
  have hhead := head?_any_of_isPrefix (trimSpace_isPrefix line) (head?_dropWhile_isSpace line)
  have hlast : (trimSpace line).getLast?.any isSpace = false := by
    rw [trimSpace, List.getLast?_reverse]
    exact head?_dropWhile_isSpace _
  simp [Token.trimmed, hhead, hlast]

/-- Trimming leaves nothing exactly of a text that is all white space. -/
theorem trimSpace_eq_nil_iff (line : List Byte) : trimSpace line = [] ↔ ∀ b ∈ line, isSpace b = true := by
  constructor
  · intro h b hb
    have hdropped : ∀ b ∈ line.dropWhile isSpace, isSpace b = true := by
      simpa [trimSpace, List.dropWhile_eq_nil_iff] using h
    rw [← List.takeWhile_append_dropWhile (p := isSpace) (l := line)] at hb
    obtain htaken | hrest := List.mem_append.mp hb
    · exact List.mem_takeWhile_imp htaken
    · exact hdropped b hrest
  · intro h
    simp [trimSpace, List.dropWhile_eq_nil_iff.mpr h]

/-! ### Lines without an instruction -/

/-- Settles O14: what is left of the line without its comment is trimmed to nothing. -/
theorem blankLinesAreNoInstruction : Obligations.BlankLinesAreNoInstruction := by
  intro line
  have hnone : tokenizeLine line = none ↔ trimSpace (stripComment line) = [] := by
    simp [tokenizeLine]
  rw [hnone, trimSpace_eq_nil_iff]
  rfl

/-! ### The operands -/

/-- No piece of a split text holds the separator. -/
theorem not_mem_of_mem_splitAtByte {sep : Byte} {text piece : List Byte} (h : piece ∈ splitAtByte sep text) :
    sep ∉ piece := by
  induction text generalizing piece with
  | nil =>
    obtain rfl := List.mem_singleton.mp h
    exact List.not_mem_nil
  | cons b rest ih =>
    simp only [splitAtByte] at h
    split at h
    next =>
      obtain rfl | h := List.mem_cons.mp h
      · exact List.not_mem_nil
      · exact ih h
    next hb =>
      have hne : sep ≠ b := fun heq => hb (beq_iff_eq.mpr heq.symm)
      split at h
      next =>
        obtain rfl := List.mem_singleton.mp h
        simpa using hne
      next first more hsplit =>
        rw [hsplit] at ih
        obtain rfl | h := List.mem_cons.mp h
        · exact List.not_mem_cons_of_ne_of_not_mem hne (ih List.mem_cons_self)
        · exact ih (List.mem_cons_of_mem _ h)

/-- The guarantees of R47 for one operand. -/
theorem splitOperands_wellFormed {text : List Byte} {tok : Token} (h : tok ∈ splitOperands text) :
    (Token.nonEmpty tok && Token.trimmed tok && Token.commaFree tok) = true := by
  obtain ⟨htok, hne⟩ := List.mem_filter.mp h
  obtain ⟨piece, hpiece, rfl⟩ := List.mem_map.mp htok
  have hcomma : Token.commaFree (trimSpace piece) = true := by
    refine List.all_eq_true.mpr fun b hb => bne_iff_ne.mpr ?_
    rintro rfl
    exact not_mem_of_mem_splitAtByte hpiece (trimSpace_subset piece hb)
  simp [Token.nonEmpty, hne, trimSpace_trimmed, hcomma]

/-- Settles O13: the mnemonic ends before the first white space, and every operand is a trimmed piece between commas. -/
theorem loaderKeepsGuarantees : Obligations.LoaderKeepsGuarantees := by
  intro line t h
  obtain ⟨-, ht⟩ := Option.ite_none_left_eq_some.mp h
  cases ht
  simp only [TextInstr.wellFormed, Bool.and_eq_true]
  exact ⟨List.all_takeWhile, List.all_eq_true.mpr fun _ => splitOperands_wellFormed⟩

end Sys2Proof.Machine
end

section
/-! PROOFS. The arithmetic instructions (spec/40_arith.md R80 to R86): each is an ALU row of the control table, and the
integer law R85 says what its wrapped result is. -/

namespace Sys2Proof.Machine

/-! ### Rows of the ALU -/

section
variable {i : Instr} {c : AluControl} {s : State}

/-- An instruction whose row drives the ALU writes the result of the ALU to the row's destination (R70, R86). -/
theorem exec_writesReg_of_alu {v : Word} (hc : controlOf i = .alu c)
    (hv : alu Config.shamtPolicy c.fn (operandA c.a s) (operandB c.b s) = some v) :
    ∃ t, exec i s = .next t ∧ WritesReg s t c.rd v := by
  obtain ⟨t, ht, heff⟩ := exec_effect i s
  rw [hc] at heff
  obtain ⟨u, hu, hw⟩ := heff
  cases hv.symm.trans hu
  exact ⟨t, ht, hw⟩

/-- The law of R85: where the result of the ALU is the wrap of an exact integer `n`, the destination reads `n` modulo
`2 ^ 32`. -/
theorem exec_writesReg_of_wrap32 {n : Int} (hc : controlOf i = .alu c)
    (hv : alu Config.shamtPolicy c.fn (operandA c.a s) (operandB c.b s) = some (wrap32 n)) :
    ∃ t v, exec i s = .next t ∧ (v.toNat : Int) = n % 2 ^ 32 ∧ WritesReg s t c.rd v := by
  obtain ⟨t, ht, hw⟩ := exec_writesReg_of_alu hc hv
  exact ⟨t, wrap32 n, ht, wrap32_toNat n, hw⟩

end

/-! ### The five instructions -/

/-- Settles O15: the row of `li` passes its immediate. -/
theorem liLoadsImmediate : Obligations.LiLoadsImmediate := fun rd imm _ =>
  exec_writesReg_of_alu (c := ⟨none, .immediate imm, .pass, rd⟩) rfl rfl

/-- Settles O16: the row of `add` wraps the exact sum of operands that are read before the write (R86 (a)). -/
theorem addWritesWrappedSum : Obligations.AddWritesWrappedSum := fun rd rs rt _ =>
  exec_writesReg_of_wrap32 (c := ⟨some rs, .register rt, .add, rd⟩) rfl rfl

/-- Settles O17: the row of `sub` wraps the exact difference, `rs` the minuend. -/
theorem subWritesWrappedDifference : Obligations.SubWritesWrappedDifference := fun rd rs rt _ =>
  exec_writesReg_of_wrap32 (c := ⟨some rs, .register rt, .sub, rd⟩) rfl rfl

/-- Settles O18: the row of `addi` is that of `add` with the immediate as operand B. -/
theorem addiWritesWrappedSum : Obligations.AddiWritesWrappedSum := fun rd rs imm _ =>
  exec_writesReg_of_wrap32 (c := ⟨some rs, .immediate imm, .add, rd⟩) rfl rfl

/-- Settles O19: the row of `mul` wraps the exact product of the signed readings. -/
theorem mulWritesLowProduct : Obligations.MulWritesLowProduct := fun rd rs rt _ =>
  exec_writesReg_of_wrap32 (c := ⟨some rs, .register rt, .mul, rd⟩) rfl rfl

end Sys2Proof.Machine
end

section
/-! PROOFS. The logical instructions (spec/41_logic.md R90 to R95): each is an ALU row of the control table whose
function is one truth table applied at every bit position. -/

namespace Sys2Proof.Machine

/-! ### The logical functions of the ALU, bit by bit (R95) -/

@[simp] theorem getLsbD_aluAnd (a b : Word) (k : Nat) : (aluAnd a b).getLsbD k = (a.getLsbD k && b.getLsbD k) :=
  BitVec.getLsbD_and

@[simp] theorem getLsbD_aluOr (a b : Word) (k : Nat) : (aluOr a b).getLsbD k = (a.getLsbD k || b.getLsbD k) :=
  BitVec.getLsbD_or

@[simp] theorem getLsbD_aluXor (a b : Word) (k : Nat) : (aluXor a b).getLsbD k = (a.getLsbD k ^^ b.getLsbD k) :=
  BitVec.getLsbD_xor

/-! ### Rows of the ALU with a bitwise function -/

/-- The law of R95: where the ALU's function acts by the truth table `op` at every position, so does the instruction,
from its operands before the write to its destination. -/
theorem exec_writesReg_of_bitwise {i : Instr} {c : AluControl} {s : State} {f : Word → Word → Word}
    {op : Bool → Bool → Bool} (hf : ∀ a b k, (f a b).getLsbD k = op (a.getLsbD k) (b.getLsbD k))
    (hc : controlOf i = .alu c)
    (hv : alu Config.shamtPolicy c.fn (operandA c.a s) (operandB c.b s) = some (f (operandA c.a s) (operandB c.b s))) :
    ∃ t v, exec i s = .next t ∧ WritesReg s t c.rd v ∧
      ∀ k < 32, v.getLsbD k = op ((operandA c.a s).getLsbD k) ((operandB c.b s).getLsbD k) := by
  obtain ⟨t, ht, hw⟩ := exec_writesReg_of_alu hc hv
  exact ⟨t, _, ht, hw, fun k _ => hf _ _ k⟩

/-! ### The five instructions -/

/-- Settles O20: the row of `and` conjoins two registers. -/
theorem andActsBitwise : Obligations.AndActsBitwise := fun rd rs rt _ =>
  exec_writesReg_of_bitwise (c := ⟨some rs, .register rt, .and, rd⟩) getLsbD_aluAnd rfl rfl

/-- Settles O21: the row of the register form of `or` disjoins two registers. -/
theorem orActsBitwise : Obligations.OrActsBitwise := fun rd rs rt _ =>
  exec_writesReg_of_bitwise (c := ⟨some rs, .register rt, .or, rd⟩) getLsbD_aluOr rfl rfl

/-- Settles O22: the literal form of `or` has the whole immediate as operand B. -/
theorem orlActsBitwise : Obligations.OrlActsBitwise := fun rd rs imm _ =>
  exec_writesReg_of_bitwise (c := ⟨some rs, .immediate imm, .or, rd⟩) getLsbD_aluOr rfl rfl

/-- Settles O23: the row of `ori` is that of the literal form of `or`. -/
theorem oriActsBitwise : Obligations.OriActsBitwise := fun rd rs imm _ =>
  exec_writesReg_of_bitwise (c := ⟨some rs, .immediate imm, .or, rd⟩) getLsbD_aluOr rfl rfl

/-- Settles O24: the row of `xor` takes the exclusive or of two registers. -/
theorem xorActsBitwise : Obligations.XorActsBitwise := fun rd rs rt _ =>
  exec_writesReg_of_bitwise (c := ⟨some rs, .register rt, .xor, rd⟩) getLsbD_aluXor rfl rfl

end Sys2Proof.Machine
end

section
/-! PROOFS. The shift instructions (spec/42_shift.md R100 to R102): each is an ALU row of the control table whose amount
is the immediate under the shift policy, and the shift functions are a product and a quotient by a power of two. -/

namespace Sys2Proof.Machine

/-! ### The shift functions as a product and a quotient (R102) -/

theorem aluShl_toNat (v : Word) (n : Nat) : (aluShl v n).toNat = v.toNat * 2 ^ n % 2 ^ 32 := by
  rw [aluShl_eq, BitVec.toNat_shiftLeft, Nat.shiftLeft_eq]

theorem aluShr_toNat (v : Word) (n : Nat) : (aluShr v n).toNat = v.toNat / 2 ^ n := by
  rw [aluShr_eq, BitVec.toNat_ushiftRight, Nat.shiftRight_eq_div_pow]

/-- A right shift by 1 or more brings a zero into the sign bit (R101). -/
theorem aluShr_toInt_nonneg (v : Word) {n : Nat} (hn : n ≠ 0) : 0 ≤ (aluShr v n).toInt := by
  rw [aluShr_eq, BitVec.toInt_ushiftRight_of_lt (Nat.pos_of_ne_zero hn)]
  exact Int.natCast_nonneg _

/-! ### Rows of the ALU with a shift -/

/-- The configured policy `mask5` gives `sll` the immediate modulo 32 as its amount (R102, D8). -/
theorem alu_sll (a b : Word) : alu Config.shamtPolicy .sll a b = some (aluShl a (b.toNat % 32)) :=
  congrArg (Option.map (aluShl a)) (shiftAmount_mask5 b)

/-- The configured policy `mask5` gives `srl` the immediate modulo 32 as its amount (R102, D8). -/
theorem alu_srl (a b : Word) : alu Config.shamtPolicy .srl a b = some (aluShr a (b.toNat % 32)) :=
  congrArg (Option.map (aluShr a)) (shiftAmount_mask5 b)

/-! ### The two instructions -/

/-- Settles O25: the row of `sll` shifts up the operand read before the write. -/
theorem sllMovesBitsUp : Obligations.SllMovesBitsUp := by
  intro rd rs imm s
  obtain ⟨t, ht, hw⟩ := exec_writesReg_of_alu (i := .sll rd rs imm) (s := s) rfl (alu_sll _ _)
  exact ⟨t, _, ht, hw, aluShl_toNat _ _⟩

/-- Settles O26: the row of `srl` shifts down the operand read before the write. -/
theorem srlMovesBitsDown : Obligations.SrlMovesBitsDown := by
  intro rd rs imm s
  obtain ⟨t, ht, hw⟩ := exec_writesReg_of_alu (i := .srl rd rs imm) (s := s) rfl (alu_srl _ _)
  exact ⟨t, _, ht, hw, aluShr_toNat _ _, aluShr_toInt_nonneg _⟩

/-! ### The policies for a shift amount (R102) -/

/-- The low five bits of an immediate are the same in its two readings, as 32 divides `2 ^ 32`. -/
theorem toInt_emod_32 (imm : Word) : imm.toInt % 32 = (imm.toNat % 32 : Nat) := by
  rw [BitVec.toInt_eq_toNat_cond]
  split <;> omega

/-- The policy `skip` has no amount outside 0 to 31. -/
theorem shiftAmount_skip_eq_none {imm : Word} (h : imm.toInt < 0 ∨ 31 < imm.toInt) : shiftAmount .skip imm = none :=
  if_neg (by omega)

/-- Settles O27: in range the two readings of the immediate agree, and outside each policy has its own branch. -/
theorem shiftPoliciesAgreeInRange : Obligations.ShiftPoliciesAgreeInRange := by
  refine fun imm => ⟨fun p hlo hhi => ?inRange, fun hout => ⟨shiftAmount_skip_eq_none hout, ?mask5⟩⟩
  case inRange =>
    have hmsb : imm.msb = false := BitVec.msb_eq_toInt.trans (decide_eq_false (by omega))
    have hread : imm.toInt = imm.toNat := BitVec.toInt_eq_toNat_of_msb hmsb
    rw [shiftAmount_inRange p imm (by omega), hread, Int.toNat_natCast]
  case mask5 =>
    rw [shiftAmount_mask5, toInt_emod_32, Int.toNat_natCast]

end Sys2Proof.Machine
end

section
/-! PROOFS. The system instructions (spec/43_system.md R110 to R112): what the events of the two emitting
instructions hold, value by value and byte by byte, and what a restore makes of a record. -/

namespace Sys2Proof.Machine

/-! ### The register values and the record, by position -/

theorem State.regIdx_lt_regValues_length (s : State) (r : RegIdx) : r.toNat < s.regValues.length := by
  rw [State.regValues_length]
  exact r.isLt

/-- The register values hold register `r` at place `r` (R110). -/
theorem State.regValues_getElem? (s : State) (r : RegIdx) : s.regValues[r.toNat]? = some (s.readReg r) := by
  rw [List.getElem?_eq_getElem (s.regIdx_lt_regValues_length r), State.regValues_getElem, BitVec.ofNat_toNat,
    BitVec.setWidth_eq]

/-- Little-endian puts bits `8 * k` to `8 * k + 7` at offset `k` (R33). -/
theorem wordBytes_little_getElem? (v : Word) {k : Nat} (hk : k < 4) :
    (wordBytes .little v)[k]? = some (v.extractLsb' (8 * k) 8) := by
  match k, hk with
  | 0, _ | 1, _ | 2, _ | 3, _ => rfl

/-- Field `i` of a sequence of 32-bit fields starts at offset `4 * i` (R43). -/
theorem flatMap_wordBytes_getElem? (e : SnapEndian) {values : List Word} {i k : Nat} {v : Word}
    (hv : values[i]? = some v) (hk : k < 4) : (values.flatMap (wordBytes e))[4 * i + k]? = (wordBytes e v)[k]? := by
  induction values generalizing i with
  | nil => simp at hv
  | cons x rest ih =>
    rw [List.flatMap_cons]
    cases i with
    | zero =>
      obtain rfl : x = v := by simpa using hv
      rw [Nat.mul_zero, Nat.zero_add, List.getElem?_append_left (by simpa using hk)]
    | succ j =>
      have hoff : 4 * (j + 1) + k - (wordBytes e x).length = 4 * j + k := by
        rw [wordBytes_length]
        omega
      rw [List.getElem?_append_right (by rw [wordBytes_length]; omega), hoff]
      exact ih (by simpa using hv)

/-- A record is the fields of its values and then the field of the saved `pc` (R43). -/
theorem encodeRecord_eq_flatMap (e : SnapEndian) (values : List Word) (savedPc : Word) :
    encodeRecord e values savedPc = (values ++ [savedPc]).flatMap (wordBytes e) := by
  simp [encodeRecord]

theorem State.snapshotRecord_length (e : SnapEndian) (s : State) : (s.snapshotRecord e).length = 132 := by
  rw [State.snapshotRecord, encodeRecord_length, State.regValues_length]

/-- Byte `4 * r + k` of the record a `SNAPSHOT` emits is byte `k` of register `r` (R43). -/
theorem State.snapshotRecord_reg_byte (e : SnapEndian) (s : State) (r : RegIdx) {k : Nat} (hk : k < 4) :
    (s.snapshotRecord e)[4 * r.toNat + k]? = (wordBytes e (s.readReg r))[k]? := by
  rw [State.snapshotRecord, encodeRecord_eq_flatMap]
  refine flatMap_wordBytes_getElem? e ?_ hk
  rw [List.getElem?_append_left (s.regIdx_lt_regValues_length r), State.regValues_getElem?]

/-- Byte `128 + k` of the record a `SNAPSHOT` emits is byte `k` of `pc + 1` (R43, R111). -/
theorem State.snapshotRecord_pc_byte (e : SnapEndian) (s : State) {k : Nat} (hk : k < 4) :
    (s.snapshotRecord e)[128 + k]? = (wordBytes e (s.pc + 1#32))[k]? := by
  rw [State.snapshotRecord, encodeRecord_eq_flatMap]
  exact flatMap_wordBytes_getElem? e (i := 32) (List.getElem?_concat_length (l := s.regValues)) hk

/-! ### A restore from a record -/

/-- A restore of the registers of `s` makes every register read as in `s`: register 0 too, as its slot is ignored and
it reads 0 in both (R11, R136). -/
theorem State.readReg_restore_vmState (s u : State) (savedPc : Word) (r : RegIdx) :
    (u.restore { s.vmState with pc := savedPc }).readReg r = s.readReg r := by
  rw [State.readReg_restore]
  split
  next hr => rw [hr, State.readReg_zero]
  next => simp [State.vmState, Vector.get_eq_getElem]

/-- Settles O54: the record decodes to the registers and `pc + 1` of the state it was made of. -/
theorem snapshotThenRestoreResumes : Obligations.SnapshotThenRestoreResumes := by
  intro e s u vm h
  rw [State.snapshotRecord, decodeRecord_encodeRecord] at h
  obtain rfl := Option.some.inj h
  exact ⟨State.readReg_restore_vmState s u _, fun hpc => BitVec.toNat_add_of_lt hpc⟩

/-! ### The three instructions -/

/-- Settles O28: the row of the dump emits the register values. -/
theorem dumpEmitsAllRegisters : Obligations.DumpEmitsAllRegisters := by
  intro s
  obtain ⟨t, ht, hemit⟩ := exec_effect .dump s
  exact ⟨t, s.regValues, ht, hemit, s.regValues_length, s.regValues_getElem?⟩

/-- Settles O29: the row of the snapshot emits the record, under the spec's default byte order. -/
theorem snapshotEmitsRecord : Obligations.SnapshotEmitsRecord := by
  intro name s
  obtain ⟨t, ht, hemit⟩ := exec_effect (.snapshot name) s
  refine ⟨t, s.snapshotRecord .little, ht, hemit, s.snapshotRecord_length _, fun r k hk => ?reg, ?pc⟩
  case reg => rw [State.snapshotRecord_reg_byte _ s r hk, wordBytes_little_getElem? _ hk]
  case pc =>
    intro savedPc hsaved k hk
    have hsucc : (s.pc + 1#32).toNat = s.pc.toNat + 1 := toNat_succ_of_lt (y := savedPc) (by omega)
    have hpc : s.pc + 1#32 = savedPc := BitVec.eq_of_toNat_eq (hsucc.trans hsaved.symm)
    rw [State.snapshotRecord_pc_byte _ s hk, wordBytes_little_getElem? _ hk, hpc]

/-- Settles O30: the skip is the whole of its execute phase. -/
theorem skipChangesNothing : Obligations.SkipChangesNothing := exec_skip_spec

end Sys2Proof.Machine
end

section
/-! PROOFS. The state machine (spec/44_state_machine.md R125 to R138): the transitions between the run states, what one
step in RUNNING adds to the counters, and the length of a whole run. -/

namespace Sys2Proof.Machine

/-! ### Start and restore in READY -/

theorem State.readyStep_of_start {s : State} (hv : s.ports.restoreValid = false) (hst : s.ports.start = true) :
    s.readyStep = s.startRun := by
  simpa [hv, hst] using s.readyStep_cases

theorem State.readyStep_of_restore {s : State} (hv : s.ports.restoreValid = true) (hst : s.ports.start = false) :
    s.readyStep = s.restore s.ports.initialState := by
  simpa [hv, hst] using s.readyStep_cases

/-- Settles O46: the step in READY is the start alone. -/
theorem startBeginsRun : Obligations.StartBeginsRun := by
  intro s hr hs hv hst
  rw [step_of_ready hr hs, State.readyStep_of_start hv hst]
  rfl

/-- Settles O47: the step in READY is the restore alone, and a restore loads the register cells and `pc` only. -/
theorem restoreLoadsState : Obligations.RestoreLoadsState := by
  intro s hr hs hv hst
  refine ⟨s.restore s.ports.initialState, ?_, fun r => s.readReg_restore _ r, s.restore_pc _, s.restore_steps _,
    (s.restore_runState _).trans hs, s.restore_quota _, s.restore_events _, s.restore_outcomes _, s.restore_imem _,
    s.restore_ports _⟩
  rw [step_of_ready hr hs, State.readyStep_of_restore hv hst]

/-- Only a start leaves READY (R126). -/
theorem State.readyStep_runState (s : State) :
    s.readyStep.runState = if s.ports.start then .running else s.runState := by
  obtain ⟨-, hst, h⟩ | ⟨-, hst, h⟩ | ⟨-, hst, h⟩ | ⟨-, hst, h⟩ := s.readyStep_cases <;> simp [hst, h]

/-! ### The bounds -/

/-- A bound is reached, in numbers (R127, R133). -/
theorem State.canStep_eq_false_iff_toNat (s : State) :
    s.canStep = false ↔ s.imem.len.toNat ≤ s.pc.toNat ∨ s.quota.toNat ≤ s.steps.toNat := by
  simp [State.canStep_false_iff, State.atEnd_eq, State.quotaReached_eq]

@[simp] theorem State.canStep_halt (s : State) : s.halt.canStep = s.canStep := rfl

@[simp] theorem State.canStep_haltCheck (s : State) : s.haltCheck.canStep = s.canStep := rfl

/-- Settles O39: under the invariant HALTED means that a bound is reached, and the flags tell which. -/
theorem haltedIsTerminal : Obligations.HaltedIsTerminal := by
  intro s hs
  refine ⟨fun hr => step_of_halted hr hs, fun hinv => ?_⟩
  have hbound := s.canStep_false_iff.mp (hinv.halted hs)
  simpa [State.haltEndPort, State.haltQuotaPort, hs] using hbound

/-! ### One step in RUNNING -/

/-- Settles O34: the loop condition holds, so the step is the execute phase, the advance and the halt check. -/
theorem stepRunsDecodedEntry : Obligations.StepRunsDecodedEntry :=
  fun s _ _ hr hs hpc hsteps he hu => step_of_exec hr hs (s.canStep_iff.mpr ⟨hpc, hsteps⟩) he hu

/-- What `n` instructions of a run do to everything but the registers and events: `pc` and `steps` are `n` higher as
numbers, there are `n` more outcomes, and the run inputs are as before (R130, R132, R135). -/
structure AdvancedBy (n : Nat) (s t : State) : Prop where
  pc : t.pc.toNat = s.pc.toNat + n
  steps : t.steps.toNat = s.steps.toNat + n
  outcomes : t.outcomes.length = s.outcomes.length + n
  quota : t.quota = s.quota
  imem : t.imem = s.imem
  ports : t.ports = s.ports

theorem AdvancedBy.refl (s : State) : AdvancedBy 0 s s := ⟨rfl, rfl, rfl, rfl, rfl, rfl⟩

theorem advancedBy_zero_halt (s : State) : AdvancedBy 0 s s.halt := ⟨rfl, rfl, rfl, rfl, rfl, rfl⟩

theorem AdvancedBy.trans {m n : Nat} {s t u : State} (h : AdvancedBy m s t) (h' : AdvancedBy n t u) :
    AdvancedBy (m + n) s u where
  pc := by rw [h'.pc, h.pc, Nat.add_assoc]
  steps := by rw [h'.steps, h.steps, Nat.add_assoc]
  outcomes := by rw [h'.outcomes, h.outcomes, Nat.add_assoc]
  quota := h'.quota.trans h.quota
  imem := h'.imem.trans h.imem
  ports := h'.ports.trans h.ports

/-- The execute phase leaves the counters to the advance, which does not wrap below the bounds (R16, R17, R132). -/
theorem advancedBy_one_of_exec {i : Instr} {s u : State} (hc : s.canStep = true) (hu : exec i s = .next u) :
    AdvancedBy 1 s u.advance.haltCheck := by
  have heff := effect_of_exec hu
  obtain ⟨hpc, hsteps, -, hquota, himem, hports⟩ := heff.sameControl
  obtain ⟨hpcSucc, hstepsSucc⟩ := s.advance_toNat hc
  exact
    { pc := by simpa [hpc] using hpcSucc
      steps := by simpa [hsteps] using hstepsSucc
      outcomes := by simp [heff.outcomes]
      quota := hquota
      imem := himem
      ports := hports }

/-- A step in RUNNING halts at once where a bound is reached; else it counts one instruction and checks the bounds again
(R133, R138). -/
theorem step_cases_of_running {s t : State} (hr : s.ports.rst = false) (hs : s.runState = .running)
    (h : step s = .next t) :
    (s.canStep = false ∧ t = s.halt) ∨
      (s.canStep = true ∧ AdvancedBy 1 s t ∧ t.runState = if t.canStep then .running else .halted) := by
  obtain ⟨hrst, -⟩ | ⟨-, hready, -⟩ | ⟨-, hhalted, -⟩ | ⟨-, -, hc, rfl⟩ | ⟨-, -, hc, e, u, -, hu, rfl⟩ := step_cases h
  case inl => simp [hr] at hrst
  case inr.inl => simp [hs] at hready
  case inr.inr.inl => simp [hs] at hhalted
  case inr.inr.inr.inl => exact .inl ⟨hc, rfl⟩
  case inr.inr.inr.inr =>
    obtain ⟨-, -, hrun, -⟩ := (effect_of_exec hu).sameControl
    refine .inr ⟨hc, advancedBy_one_of_exec hc hu, ?_⟩
    rw [State.haltCheck_runState, State.canStep_haltCheck, State.advance_runState, hrun, hs]

/-- After a step in RUNNING the run state tells whether another step may be taken (R133). -/
theorem runState_of_step_running {s t : State} (hr : s.ports.rst = false) (hs : s.runState = .running)
    (h : step s = .next t) : t.runState = if t.canStep then .running else .halted := by
  obtain ⟨hc, rfl⟩ | ⟨-, -, hrun⟩ := step_cases_of_running hr hs h
  · simp [hc]
  · exact hrun

/-- Settles O37: the two cases of a step in RUNNING. -/
theorem stepAdvancesByOne : Obligations.StepAdvancesByOne := by
  intro s t hr hs h
  rw [← s.canStep_iff, ← s.canStep_eq_false_iff_toNat]
  obtain ⟨hc, rfl⟩ | ⟨hc, hadv, -⟩ := step_cases_of_running hr hs h
  · exact ⟨by simp [hc], fun _ => ⟨s.halt_pc, s.halt_steps⟩⟩
  · exact ⟨fun _ => ⟨hadv.pc, hadv.steps⟩, by simp [hc]⟩

/-- Settles O38: after the step the run state follows the loop condition, and at a bound the step is the halt. -/
theorem haltsExactlyAtBounds : Obligations.HaltsExactlyAtBounds := by
  intro s t hr hs h
  rw [← t.canStep_eq_false_iff_toNat, ← t.canStep_iff, ← s.canStep_eq_false_iff_toNat,
    runState_of_step_running hr hs h]
  refine ⟨by simp, by simp, fun hc => ?_⟩
  obtain ⟨-, ht⟩ | ⟨hc', -⟩ := step_cases_of_running hr hs h
  · exact ht
  · simp [hc] at hc'

/-- Settles O40: what a step does to the run state, from each of the three. -/
theorem runStateTransitions : Obligations.RunStateTransitions := by
  intro s t hr h
  refine ⟨fun hs => ?ready, fun hs => ?running, fun hs => ?halted⟩
  case ready =>
    rw [step_of_ready hr hs] at h
    cases h
    cases hst : s.ports.start <;> simp [State.readyStep_runState, hst, hs]
  case running =>
    rw [runState_of_step_running hr hs h]
    cases t.canStep <;> simp
  case halted =>
    rw [step_of_halted hr hs] at h
    cases h
    exact hs

/-! ### Many steps -/

theorem stepMany_succ_of_step {s t : State} (h : step s = .next t) (k : Nat) : stepMany (k + 1) s = stepMany k t := by
  simp [stepMany, h]

/-- Whatever every step keeps, any number of steps keeps. -/
theorem stepMany_keeps {P : State → Prop} (hstep : ∀ s t, P s → step s = .next t → P t) {k : Nat} {s t : State}
    (hs : P s) (h : stepMany k s = .next t) : P t := by
  induction k generalizing s with
  | zero =>
    cases h
    exact hs
  | succ k ih =>
    unfold stepMany at h
    split at h
    next u hu => exact ih (hstep s u hs hu) h
    next => cases h
    next => cases h

/-- Below both bounds the store has an entry and its execute phase completes, so the step answers (R31, R151). -/
theorem exists_step_of_canStep {s : State} (hr : s.ports.rst = false) (hs : s.runState = .running)
    (hc : s.canStep = true) : ∃ t, step s = .next t := by
  obtain ⟨-, e, he⟩ := fetchStaysInStore s hc
  obtain ⟨u, hu, -⟩ := exec_effect (decodeEntry e) s
  exact ⟨_, step_of_exec hr hs hc he hu⟩

/-- The number of instructions that fit below both bounds: the `n_steps` of R134, from any point of a run. -/
def State.stepsLeft (s : State) : Nat := min (s.quota.toNat - s.steps.toNat) (s.imem.len.toNat - s.pc.toNat)

theorem State.canStep_iff_stepsLeft_pos (s : State) : s.canStep = true ↔ 0 < s.stepsLeft := by
  rw [State.canStep_iff, State.stepsLeft]
  omega

theorem AdvancedBy.stepsLeft {n : Nat} {s t : State} (h : AdvancedBy n s t) : t.stepsLeft = s.stepsLeft - n := by
  simp only [State.stepsLeft, h.pc, h.steps, h.quota, h.imem]
  omega

/-- A run ends in HALTED after the instructions that fit, by induction on their number. The hypothesis on the run state
covers the core that the last instruction has halted already: its one step more is idle (log entry 5). -/
theorem exists_stepMany_halted {s : State} (hr : s.ports.rst = false)
    (hs : s.runState = .running ∨ s.runState = .halted ∧ s.canStep = false) :
    ∃ t, stepMany (s.stepsLeft + 1) s = .next t ∧ t.runState = .halted ∧ AdvancedBy s.stepsLeft s t := by
  induction hn : s.stepsLeft generalizing s with
  | zero =>
    obtain hs | ⟨hs, -⟩ := hs
    · have hc : s.canStep = false := by
        rw [← Bool.not_eq_true, State.canStep_iff_stepsLeft_pos, hn]
        exact Nat.lt_irrefl 0
      exact ⟨s.halt, stepMany_succ_of_step (step_of_bound hr hs hc) 0, s.halt_runState, advancedBy_zero_halt s⟩
    · exact ⟨s, stepMany_succ_of_step (step_of_halted hr hs) 0, hs, AdvancedBy.refl s⟩
  | succ n ih =>
    have hc : s.canStep = true := s.canStep_iff_stepsLeft_pos.mpr (by omega)
    have hrunning : s.runState = .running := hs.resolve_right (by simp [hc])
    obtain ⟨u, hu⟩ := exists_step_of_canStep hr hrunning hc
    obtain ⟨-, hone, hrun⟩ := (step_cases_of_running hr hrunning hu).resolve_left (by simp [hc])
    have hleft : u.stepsLeft = n := by rw [hone.stepsLeft, hn, Nat.add_sub_cancel]
    have hsu : u.runState = .running ∨ u.runState = .halted ∧ u.canStep = false := by
      cases hcu : u.canStep <;> simp [hrun, hcu]
    obtain ⟨t, ht, hhalted, hadv⟩ := ih (hone.ports ▸ hr) hsu hleft
    refine ⟨t, (stepMany_succ_of_step hu _).trans ht, hhalted, ?_⟩
    rw [Nat.add_comm]
    exact hone.trans hadv

/-- Settles O51: with `steps` 0 the instructions that fit are the `n_steps` of R134. -/
theorem quotaBoundsEveryRun : Obligations.QuotaBoundsEveryRun := by
  intro s hr hs hsteps
  have hleft : min s.quota.toNat (s.imem.len.toNat - s.pc.toNat) = s.stepsLeft := by simp [State.stepsLeft, hsteps]
  obtain ⟨t, ht, hhalted, hadv⟩ := exists_stepMany_halted hr (.inl hs)
  rw [hleft]
  exact ⟨t, ht, hhalted, hadv.pc, by simpa [hsteps] using hadv.steps, hadv.outcomes⟩

/-! ### Whole runs -/

section SetUp
variable (m : IMem) (initial : Option VMState) (quota : Count)

@[simp] theorem setUp_rst : (setUp m initial quota).ports.rst = false := by cases initial <;> rfl

@[simp] theorem setUp_imem : (setUp m initial quota).imem = m := rfl

@[simp] theorem setUp_readyStep_runState : (setUp m initial quota).readyStep.runState = .running := by
  cases initial <;> rfl

@[simp] theorem setUp_readyStep_pc : (setUp m initial quota).readyStep.pc = entryPoint initial := by
  cases initial <;> rfl

@[simp] theorem setUp_readyStep_steps : (setUp m initial quota).readyStep.steps = 0#Config.quotaw := by
  cases initial <;> rfl

@[simp] theorem setUp_readyStep_quota : (setUp m initial quota).readyStep.quota = quota := by
  cases initial <;> rfl

theorem setUp_readyStep_stepsLeft :
    (setUp m initial quota).readyStep.stepsLeft = runLength m quota (entryPoint initial) := by
  simp [State.stepsLeft, runLength]

/-- The core that is set up with a legal store meets the invariant as `State.reset` does, whatever its ports. -/
theorem setUp_inv (h : Memory.wf m = true) : (setUp m initial quota).Inv :=
  { resetMeetsInvariant with
    store := h
    halted := fun hh => nomatch hh }

end SetUp

/-- Settles O52: after the step that starts it, the run halts as every run does, and the invariant is kept from set-up
on. -/
theorem runOfEveryConfigurationHalts : Obligations.RunOfEveryConfigurationHalts := by
  intro m initial quota
  have hstart : step (setUp m initial quota) = .next (setUp m initial quota).readyStep :=
    step_of_ready (setUp_rst m initial quota) rfl
  obtain ⟨t, ht, hhalted, hadv⟩ :=
    exists_stepMany_halted (s := (setUp m initial quota).readyStep) (by simp) (.inl (by simp))
  rw [setUp_readyStep_stepsLeft] at ht hadv
  have hrun : run m initial quota = .next t := (stepMany_succ_of_step hstart _).trans ht
  exact ⟨t, hrun, hhalted, by simpa using hadv.imem, by simpa using hadv.quota, by simpa using hadv.pc,
    by simpa using hadv.steps, fun hwf => stepMany_keeps stepKeepsInvariant (setUp_inv m initial quota hwf) hrun⟩

end Sys2Proof.Machine
end

section
/-! PROOFS. Exceptions and the environment (spec/60_exceptions.md R151, R158, R161): no step faults, what becomes of a
snapshot file, and what is reported on a request. -/

namespace Sys2Proof.Machine

/-! ### Totality of a step -/

/-- Settles O36: only a step in RUNNING below both bounds fetches and executes, and it answers too. -/
theorem stepIsTotal : Obligations.StepIsTotal := by
  intro s
  by_cases hr : s.ports.rst = true
  · exact ⟨_, step_of_rst hr⟩
  · rw [Bool.not_eq_true] at hr
    cases hs : s.runState with
    | ready => exact ⟨_, step_of_ready hr hs⟩
    | halted => exact ⟨_, step_of_halted hr hs⟩
    | running =>
      cases hc : s.canStep with
      | false => exact ⟨_, step_of_bound hr hs hc⟩
      | true => exact exists_step_of_canStep hr hs hc

/-! ### Snapshot files -/

theorem exists_decodeRecord_of_length (e : SnapEndian) {bytes : List Byte} (h : bytes.length = Config.snapBytes) :
    ∃ vm, decodeRecord e bytes = some vm :=
  Option.isSome_iff_exists.mp ((decodeRecord_isSome e bytes).mpr h)

theorem padRecord_length (bytes : List Byte) : (padRecord bytes).length = Config.snapBytes := by
  simp [padRecord]

/-- A filled-up record is the file as far as it goes and then zeros (R161). -/
theorem padRecord_getElem? (bytes : List Byte) {k : Nat} (hk : k < Config.snapBytes) :
    (padRecord bytes)[k]? = some (bytes.getD k 0#8) := by
  rw [padRecord, List.getElem?_take_of_lt hk, List.getD_eq_getElem?_getD]
  by_cases hin : k < bytes.length
  · rw [List.getElem?_append_left hin, List.getElem?_eq_getElem hin, Option.getD_some]
  · have hout : bytes.length ≤ k := Nat.le_of_not_lt hin
    rw [List.getElem?_append_right hout, List.getElem?_replicate_of_lt (by omega), List.getElem?_eq_none hout,
      Option.getD_none]

theorem loadSnapshotFile_whole (p : CorruptSnapshotPolicy) (e : SnapEndian) {bytes : List Byte}
    (h : bytes.length = Config.snapBytes) : loadSnapshotFile p e (some bytes) = (decodeRecord e bytes, []) :=
  if_pos h

theorem loadSnapshotFile_reject (e : SnapEndian) {bytes : List Byte} (h : bytes.length ≠ Config.snapBytes) :
    loadSnapshotFile .reject e (some bytes) = (none, [.snapshotCorruptSize]) :=
  if_neg h

theorem loadSnapshotFile_partialLoad (e : SnapEndian) {bytes : List Byte} (h : bytes.length ≠ Config.snapBytes) :
    loadSnapshotFile .partialLoad e (some bytes) = (decodeRecord e (padRecord bytes), [.snapshotCorruptSize]) :=
  if_neg h

/-- Settles O55: a whole file and a filled-up record both have the size that decodes. -/
theorem snapshotFileLoading : Obligations.SnapshotFileLoading := by
  intro p e
  refine ⟨rfl, fun bytes hsize => ?whole, fun bytes hsize => ⟨loadSnapshotFile_reject e hsize, ?filled⟩⟩
  case whole =>
    obtain ⟨vm, hvm⟩ := exists_decodeRecord_of_length e hsize
    exact ⟨vm, hvm, by rw [loadSnapshotFile_whole p e hsize, hvm]⟩
  case filled =>
    obtain ⟨vm, hvm⟩ := exists_decodeRecord_of_length e (padRecord_length bytes)
    exact ⟨padRecord bytes, vm, padRecord_length bytes, fun k hk => padRecord_getElem? bytes hk, hvm,
      by rw [loadSnapshotFile_partialLoad e hsize, hvm]⟩

/-! ### Requests -/

theorem RunRequest.configured_eq_none_iff (r : RunRequest) :
    r.configured = none ↔ r.source = none ∨ r.quota = none := by
  unfold RunRequest.configured
  cases r.source <;> cases r.quota <;> simp

theorem RunRequest.configured_eq_some_iff (r : RunRequest) (m : IMem) (quota : Count) :
    r.configured = some (m, quota) ↔ r.source = some m ∧ r.quota = some quota := by
  unfold RunRequest.configured
  cases r.source <;> cases r.quota <;> simp

section
variable {r : RunRequest}

theorem RunRequest.prepare_of_unconfigured (h : r.configured = none) : r.prepare = (State.reset, [.loadError]) := by
  rw [RunRequest.prepare, h]

theorem RunRequest.prepare_of_configured {m : IMem} {quota : Count} (h : r.configured = some (m, quota)) :
    r.prepare = (setUp m r.initial.1 quota, r.initial.2) := by
  rw [RunRequest.prepare, h]

theorem runRequest_of_unconfigured (h : r.configured = none) :
    runRequest r = (.next State.reset, [.loadError]) := by
  rw [runRequest, h]

/-- The reports on a run that answers are those of the snapshot and then those of its events (R161). -/
theorem runRequest_of_run {m : IMem} {quota : Count} {t : State} (h : r.configured = some (m, quota))
    (ht : run m r.initial.1 quota = .next t) :
    runRequest r = (.next t, r.initial.2 ++ t.events.flatMap (saveReport r.names r.unwritable)) := by
  simp only [runRequest, h, ht, RunRequest.saveReports]

end

/-- A checkpoint is reported on exactly where its name stands for no file or for one that cannot be written (R161). -/
theorem mem_saveReport_checkpoint_iff (names unwritable : List Token) (name : SnapshotName) (record : List Byte) :
    EnvReport.snapshotSaveFailed ∈ saveReport names unwritable (.checkpoint name record) ↔
      resolveName names name = none ∨ ∃ file ∈ unwritable, resolveName names name = some file := by
  simp only [saveReport]
  cases resolveName names name with
  | none => simp
  | some file => by_cases hmem : file ∈ unwritable <;> simp [hmem]

/-- Settles O56: a configured request runs to a next state, as every run does, and a failed save is one of the reports
on the events of that state. -/
theorem requestReports : Obligations.RequestReports := by
  intro r
  refine ⟨fun hmissing => ?unconfigured, fun m quota hsource hquota => ?configured⟩
  case unconfigured =>
    have hnone := r.configured_eq_none_iff.mpr hmissing
    exact ⟨runRequest_of_unconfigured hnone, RunRequest.prepare_of_unconfigured hnone⟩
  case configured =>
    have hsome := (r.configured_eq_some_iff m quota).mpr ⟨hsource, hquota⟩
    obtain ⟨t, ht, -⟩ := runOfEveryConfigurationHalts m r.initial.1 quota
    have hreports := runRequest_of_run hsome ht
    refine ⟨t, ht, RunRequest.prepare_of_configured hsome, hreports, fun name record hevent hfailed => ?_⟩
    rw [hreports]
    exact List.mem_append_right _
      (List.mem_flatMap.mpr ⟨_, hevent, (mem_saveReport_checkpoint_iff _ _ name record).mpr hfailed⟩)

end Sys2Proof.Machine
end

section
/-! PROOFS. Reset, restore and start as inputs of a step (spec/70_reset_and_hazards.md R170, R173): `rst` resets from
every state, and outside READY a step without it reads no port. -/

namespace Sys2Proof.Machine

/-! ### Reset -/

/-- Settles O45: the step is the reset, whatever the run state and the other ports. -/
theorem resetFromEveryState : Obligations.ResetFromEveryState :=
  fun s hrst => ⟨s.resetCore, step_of_rst hrst, s.readReg_resetCore, s.resetCore_pc, s.resetCore_steps,
    s.resetCore_runState, s.resetCore_events⟩

/-! ### The same state with other ports -/

/-- A state with other input ports. -/
def State.withPorts (s : State) (p : InputPorts) : State := { s with ports := p }

@[simp] theorem operandA_withPorts (a : Option RegIdx) (s : State) (p : InputPorts) :
    operandA a (s.withPorts p) = operandA a s := by
  cases a <;> rfl

@[simp] theorem operandB_withPorts (b : BSelect) (s : State) (p : InputPorts) :
    operandB b (s.withPorts p) = operandB b s := by
  cases b <;> rfl

/-- The datapath reads the registers and `pc`, never a port (R70). -/
theorem runControl_withPorts (sh : ShamtPolicy) (e : SnapEndian) (c : Control) (s : State) (p : InputPorts) :
    runControl sh e c (s.withPorts p) = (runControl sh e c s).withPorts p := by
  cases c with
  | alu a =>
    simp only [runControl, runAlu, operandA_withPorts, operandB_withPorts]
    cases alu sh a.fn (operandA a.a s) (operandB a.b s) <;> rfl
  | emitDump => rfl
  | emitCheckpoint name => rfl
  | idle => rfl

theorem exec_withPorts {i : Instr} {s u : State} (hu : exec i s = .next u) (p : InputPorts) :
    exec i (s.withPorts p) = .next (u.withPorts p) := by
  rw [exec_eq_runControl] at hu ⊢
  cases hu
  rw [runControl_withPorts]

/-- The bounds are the store's length and the quota sampled at start, so the loop condition, the fetch, the advance and
the halt check read no port either (R127, R128, R132, R133). -/
theorem step_withPorts_of_not_ready {s t : State} {p : InputPorts} (hrst : s.ports.rst = false) (hp : p.rst = false)
    (hs : s.runState ≠ .ready) (h : step s = .next t) : step (s.withPorts p) = .next (t.withPorts p) := by
  obtain ⟨hr, -⟩ | ⟨-, hready, -⟩ | ⟨-, hhalted, rfl⟩ | ⟨-, hrun, hc, rfl⟩ | ⟨-, hrun, hc, e, u, he, hu, rfl⟩ :=
    step_cases h
  case inl => simp [hrst] at hr
  case inr.inl => exact absurd hready hs
  case inr.inr.inl => exact step_of_halted hp hhalted
  case inr.inr.inr.inl => exact step_of_bound hp hrun hc
  case inr.inr.inr.inr => exact step_of_exec (s := s.withPorts p) hp hrun hc he (exec_withPorts hu p)

/-- Settles O48: no kind of step taken outside READY reads a port but `rst`. -/
theorem restoreAndStartOnlyInReady : Obligations.RestoreAndStartOnlyInReady :=
  fun _ _ _ hrst hother hs h => step_withPorts_of_not_ready hrst hother hs h

end Sys2Proof.Machine
end
